-- ==== Sys2Proof/Word.lean ====
section
/-! DEFINITION. The widths the block is built from (spec/00_scope.md R5): 32-bit registers, 24-bit samples, the 16-bit
coefficient and the 5-bit shift count, and the 4-bit transaction descriptor.  Everything computed ON them (fields, sign
extension, narrowing) stands in Sys2Proof/Decode.lean and Sys2Proof/Machine/. -/

namespace Sys2Proof

/-- A host-port word: every register is 32 bits wide (R5, R33). -/
abbrev Word := BitVec 32

/-- The 24 bits of one sample, and of OFFSET.OFS (R5, R20, R24). -/
abbrev Raw24 := BitVec 24

/-- The scale coefficient SCALE.K, read as two's complement (R21). -/
abbrev Coeff := BitVec 16

/-- The shift count SCALE.S, read unsigned (R21). -/
abbrev Shift := BitVec 5

/-- A transaction descriptor: bit 3 is WE, bits 2:0 the word index A (R49). -/
abbrev Descriptor := BitVec 4

/-- One byte lane of a register on a byte-addressed integration (R38). -/
abbrev Byte := BitVec 8

end Sys2Proof
end

