-- ==== Sys2Proof/Config.lean ====
section
/-! DEFINITION. What is fixed for one integration of the block and what the spec leaves free (spec/00_scope.md R5,
spec/93_implementation_defined.md).  An OPEN parameter and a free draw is an `opaque` constant without a body, so that no
proof sees a value of it; a constraint the spec puts on a parameter holds by construction. -/

namespace Sys2Proof.Config

/-- Data clocks of one transaction (R5, R16). -/
def dataClocks : Nat := 24

/-- The level of the `n`-th sample of DOUT that no presented level answers: a free draw (R71; 93 row 2).  Assumption 3. -/
opaque freeDout : Nat → Bool

/-- The gain a device can convert under: one of the two the block selects, or another (R31; 93 row 3). -/
inductive DevGain where
  | high | low | other
deriving DecidableEq, Repr, Inhabited

/-- The gain the device holds where no source gives it: a free draw for the `n`-th draw of the device (R31, R72, R133; 93 rows
3 and 4).  Assumption 6. -/
opaque freeDevGain : Nat → DevGain

/-- Whether the channel delivers the `n`-th message, `false` being a full queue that drops it: a free draw (R93; 93 row 8;
host side only).  Assumption 12. -/
opaque freeDelivery : Nat → Bool

/-- `BASE_ADDR / 32` (OPEN, R5, R35).  Assumption 9. -/
opaque baseBlock : Nat

/-- `BASE_ADDR`, aligned to 32 bytes (R35). -/
def baseAddr : Nat := 32 * baseBlock

/-- One megahertz in hertz: a clock of `n` megahertz has `n` cycles in a microsecond. -/
def megahertz : Nat := 1000000

/-- `T_HOLD_CYCLES - 1` (OPEN, R5). -/
opaque holdPred : Nat

/-- `T_HOLD_CYCLES`, the high and the low hold of a pulse (R5, R64).  No value of the model depends on it (R6). -/
def tHoldCycles : Nat := holdPred + 1

/-- What chooses `F_CLK` among its legal values (OPEN, R5). -/
opaque clockChoice : Nat

/-- `F_CLK`, the block clock, in hertz: any positive frequency at which `T_HOLD_CYCLES` is at least one microsecond (R5). -/
def fClk : Nat := clockChoice % (megahertz * tHoldCycles) + 1

/-- What `T_POLL_CYCLES` has above 1 (OPEN, R5). -/
opaque pollSlack : Nat

/-- `T_POLL_CYCLES`, at least 1 (R5, R60).  No value of the model depends on it (R6). -/
def tPollCycles : Nat := pollSlack + 1

/-- `SYNC_STAGES`, the depth of the DOUT synchronizer (OPEN, R5).  It only delays samples (R31), so nothing reads it. -/
opaque syncStages : Nat

/-- The host constant `REF_MASS_G` = 125.83 (R5; host side only). -/
def refMassG : ℚ := 12583 / 100

/-- The host constant `DETECT_THRESHOLD` (R5; host side only). -/
def detectThreshold : Int := 100000

/-- The host's text for the tare status message, which the spec leaves open (R98; spec/91_not_in_source.md). -/
opaque tareText : String

end Sys2Proof.Config
end

