-- ==== Sys2Proof/Syntax.lean ====
section
/-! DEFINITION. What a host can say to the block: the eight registers (spec/10_state.md R14), the instructions (one
constructor per row of spec/opcode_table.json), and the two formats their bits stand in (spec/30_encoding.md R49, R50).

The table has two levels.  A BUS row is a whole host transaction; a CMD row is a command word, the data word of a WR CMD
transaction.  So `.wrCmd v` is the transaction that carries the command word `v`, whatever `v` is, and `.readRaw` is the
command that the word 0x00000001 selects. -/

namespace Sys2Proof

/-- The eight host-visible registers, in the order of their word index A = 0 .. 7 (R14). -/
inductive Reg where
  | ctrl | cmd | status | offset | scale | result | lastGrams | raw
deriving DecidableEq, Repr

/-- The instructions: nine host transactions (R53) and six commands (R54). -/
inductive Instr where
  /-- RD: read register `r` (R36). -/
  | rd (r : Reg)
  /-- WR CTRL (R74). -/
  | wrCtrl (v : Word)
  /-- WR CMD: present the command word `v` to the command decoder (R107). -/
  | wrCmd (v : Word)
  /-- WR STATUS: clear the sticky flags `v` names (R111). -/
  | wrStatus (v : Word)
  /-- WR OFFSET (R77). -/
  | wrOffset (v : Word)
  /-- WR SCALE (R78). -/
  | wrScale (v : Word)
  /-- WR RESULT: ignored (R112). -/
  | wrResult (v : Word)
  /-- WR LAST_GRAMS: ignored (R112). -/
  | wrLastGrams (v : Word)
  /-- WR RAW: ignored (R112). -/
  | wrRaw (v : Word)
  /-- The command NOP (R108). -/
  | nop
  /-- The command READ_RAW (R73). -/
  | readRaw
  /-- The command TARE (R80). -/
  | tare
  /-- The command READ_CAL (R82). -/
  | readCal
  /-- The command MEASURE (R83). -/
  | measure
  /-- The command ABORT (R109). -/
  | abort
deriving DecidableEq, Repr

/-- One transaction as the host port carries it (R33, R49): the descriptor `{we, addr}` and `wdata`.  A read has a `wdata`
too, which nothing reads. -/
structure Transaction where
  desc  : Descriptor
  wdata : Word
deriving DecidableEq, Repr

/-- An instruction's bits in its own format: BUS (R49) or CMD (R50). -/
inductive Code where
  | bus (t : Transaction)
  | cmd (v : Word)
deriving DecidableEq, Repr

/-- An access to the block's registers from a byte-addressed integration (R35, R38, R40).  The port itself cannot express a
byte address or a size; an integration in front of it can. -/
structure BusAccess where
  addr  : Nat
  size  : Nat
  we    : Bool
  wdata : Word
deriving DecidableEq, Repr

end Sys2Proof
end

