-- ==== Sys2Proof/WellFormed.lean ====
section
/-! DEFINITION. Which terms stand for something the spec lets a host say.

Every term of `Instr` and of `Transaction` is well formed: all 16 descriptors are assigned (spec/30_encoding.md R53), every
data word is legal (reserved bits are ignored, R56; a reserved command word is a legal data word of WR CMD with an effect of
its own, R110), and the fields' types carry the spec's widths.  An access of an INTEGRATION can be ill formed: of another
size than one word, misaligned, or outside the block's 32 bytes (spec/20_memory.md R34, R35, R40). -/

namespace Sys2Proof

/-- Every instruction is well formed (R53, R56). -/
def Instr.wf : Instr → Bool
  | .rd _ | .wrCtrl _ | .wrCmd _ | .wrStatus _ | .wrOffset _ | .wrScale _ | .wrResult _ | .wrLastGrams _ | .wrRaw _
  | .nop | .readRaw | .tare | .readCal | .measure | .abort => true

/-- The access moves one whole register (R40). -/
def BusAccess.wholeWord (a : BusAccess) : Bool := a.size == 4

/-- The access is at a word boundary (R40). -/
def BusAccess.aligned (a : BusAccess) : Bool := a.addr % 4 == 0

/-- The access begins inside the block's 32 bytes (R34, R35); as `BASE_ADDR` is aligned to 32 bytes, an aligned word that begins
inside lies inside, and one that begins outside lies outside. -/
def BusAccess.inBlock (a : BusAccess) : Bool :=
  decide (Config.baseAddr ≤ a.addr) && decide (a.addr < Config.baseAddr + 32)

/-- An access the port can carry as one transaction. -/
def BusAccess.wf (a : BusAccess) : Bool := a.wholeWord && a.aligned && a.inBlock

end Sys2Proof
end

