-- ==== Sys2Proof/Decode.lean ====
section
/-! DEFINITION. The two decoders of the spec and the encoder beside them (spec/30_encoding.md).  The bus decoder reads a
transaction (R49, R53) and is total: every descriptor is assigned.  The command decoder reads a command word (R50, R54) and
refuses the reserved ones by name (R55). -/

namespace Sys2Proof

/-- Why a command word selects no command (R55). -/
inductive DecodeError where
  /-- `RSV` (bits 31:4) is not 0, whatever `OPC` is. -/
  | reservedBits
  /-- `RSV` is 0 and `OPC` is in 0x5 .. 0xE. -/
  | reservedOpcode
deriving DecidableEq, Repr

/-- The register at word index `a` (R14). -/
def regAt (a : BitVec 3) : Reg :=
  match a.toNat with
  | 0 => .ctrl
  | 1 => .cmd
  | 2 => .status
  | 3 => .offset
  | 4 => .scale
  | 5 => .result
  | 6 => .lastGrams
  | _ => .raw

/-- The word index A of a register (R14). -/
def Reg.index : Reg → BitVec 3
  | .ctrl => 0
  | .cmd => 1
  | .status => 2
  | .offset => 3
  | .scale => 4
  | .result => 5
  | .lastGrams => 6
  | .raw => 7

/-- The write transaction to register `r` (R53, descriptors 0x8 .. 0xF). -/
def writeTo (r : Reg) (v : Word) : Instr :=
  match r with
  | .ctrl => .wrCtrl v
  | .cmd => .wrCmd v
  | .status => .wrStatus v
  | .offset => .wrOffset v
  | .scale => .wrScale v
  | .result => .wrResult v
  | .lastGrams => .wrLastGrams v
  | .raw => .wrRaw v

/-- Descriptor bit 3, WE: 1 is a write, and nothing else tells a write from a read (R49, R51). -/
def Transaction.we (t : Transaction) : Bool := t.desc.getLsbD 3

/-- Descriptor bits 2:0: the register addressed (R49). -/
def Transaction.reg (t : Transaction) : Reg := regAt (t.desc.extractLsb' 0 3)

/-- The bus decoder (R49, R53). -/
def decodeBus (t : Transaction) : Instr :=
  if t.we then writeTo t.reg t.wdata else .rd t.reg

/-- `OPC`, bits 3:0 of a command word (R50). -/
def opcOf (v : Word) : BitVec 4 := v.extractLsb' 0 4

/-- `RSV`, bits 31:4 of a command word (R50). -/
def rsvOf (v : Word) : BitVec 28 := v.extractLsb' 4 28

/-- The command decoder: a word selects a command only when it equals the table's value exactly (R54, R55). -/
def decodeCmd (v : Word) : Except DecodeError Instr :=
  if rsvOf v ≠ 0 then .error .reservedBits
  else
    match (opcOf v).toNat with
    | 0 => .ok .nop
    | 1 => .ok .readRaw
    | 2 => .ok .tare
    | 3 => .ok .readCal
    | 4 => .ok .measure
    | 15 => .ok .abort
    | _ => .error .reservedOpcode

/-- Decoding, by format (R51: one shape, no mode changes it). -/
def decode : Code → Except DecodeError Instr
  | .bus t => .ok (decodeBus t)
  | .cmd v => decodeCmd v

/-- The descriptor `{we, A}` (R49). -/
def descriptor (we : Bool) (r : Reg) : Descriptor := BitVec.ofBool we ++ r.index

/-- The bits of a read of `r`; its `wdata` carries nothing and is written as 0. -/
def readCode (r : Reg) : Code := .bus ⟨descriptor false r, 0⟩

/-- The bits of a write of `v` to `r`. -/
def writeCode (r : Reg) (v : Word) : Code := .bus ⟨descriptor true r, v⟩

/-- The encoder: the bits of an instruction in its own format (R53, R54). -/
def encode : Instr → Code
  | .rd r => readCode r
  | .wrCtrl v => writeCode .ctrl v
  | .wrCmd v => writeCode .cmd v
  | .wrStatus v => writeCode .status v
  | .wrOffset v => writeCode .offset v
  | .wrScale v => writeCode .scale v
  | .wrResult v => writeCode .result v
  | .wrLastGrams v => writeCode .lastGrams v
  | .wrRaw v => writeCode .raw v
  | .nop => .cmd 0x00000000#32
  | .readRaw => .cmd 0x00000001#32
  | .tare => .cmd 0x00000002#32
  | .readCal => .cmd 0x00000003#32
  | .measure => .cmd 0x00000004#32
  | .abort => .cmd 0x0000000F#32

/-- What the host port carries for a code: a command word is the data word of descriptor 0x9 (R50). -/
def Code.onPort : Code → Transaction
  | .bus t => t
  | .cmd v => ⟨0x9#4, v⟩

/-- A row of spec/opcode_table.json as a code.  A BUS row's bits are the descriptor (one byte of the table; bits 7:4 carry no
signal) and, from bit 8 on, the data word; a CMD row's 32 bits are the command word.  Assumption 8. -/
def tableCode (nbits w : Nat) : Code :=
  if nbits ≤ 8 then .bus ⟨BitVec.ofNat 4 w, BitVec.ofNat 32 (w >>> 8)⟩ else .cmd (BitVec.ofNat 32 w)

/-- What the decoders read from a row of the opcode table. -/
def decodeTableWord (nbits w : Nat) : Option Instr :=
  match decode (tableCode nbits w) with
  | .ok i => some i
  | .error _ => none

end Sys2Proof
end

