-- ==== Sys2Proof/Machine/State.lean ====
section
/-! DEFINITION. The state of the block and of what stands outside it as far as the spec names it (spec/10_state.md): the
host-visible registers, the sequencer, the pins, the external device, and the inputs still to come.  Plain data throughout. -/

namespace Sys2Proof.Machine

/-- GainSetting (R15, R16): the two values of CTRL.GAIN. -/
inductive Gain where
  | high | low
deriving DecidableEq, Repr

/-- CTRL (R15). -/
structure Ctrl where
  gain : Gain
  cal  : Bool
  ie   : Bool
deriving DecidableEq, Repr

/-- The names of the sticky STATUS flags (R19). -/
inductive Flag where
  | done | uncal | overrun | illegal | aborted | sat
deriving DecidableEq, Repr

/-- The sticky STATUS flags (R19, R116). -/
structure Sticky where
  done    : Bool
  uncal   : Bool
  overrun : Bool
  illegal : Bool
  aborted : Bool
  sat     : Bool
deriving DecidableEq, Repr

/-- STATUS bits 11:8, the gain bookkeeping (R19). -/
structure GainBook where
  pgain  : Gain
  pgainV : Bool
  sgain  : Gain
  sgainV : Bool
deriving DecidableEq, Repr

/-- SCALE (R21): the coefficient K and the shift count S. -/
structure Scale where
  k : Coeff
  s : Shift
deriving DecidableEq, Repr

/-- The commands that take a snapshot and may run a device transaction (R59, R107). -/
inductive Op where
  | readRaw | tare | readCal | measure
deriving DecidableEq, Repr

/-- The snapshot taken at issue (R29).  `ofs`, `k` and `s` are held as the registers' bit patterns: `offset_l`, `k_l` and
`s_l` are their integer readings, and `n_l` is N(`gain`) (R16), so neither is stored a second time. -/
structure Snapshot where
  op   : Op
  gain : Gain
  cal  : Bool
  ofs  : Raw24
  k    : Coeff
  s    : Shift
deriving DecidableEq, Repr

/-- The sequencer's phase (R27). -/
inductive Phase where
  | idle
  | wait
  | rise (k : Nat)
  | fall (k : Nat)
  | finish
deriving DecidableEq, Repr

/-- `dev_gain` (R31, R72): the gain the last complete transaction selected, or, where no source gives the gain, the number of
the free draw that answers for it (R133; 93 row 3).  `conversionGain` reads it.  Assumption 6. -/
inductive HeldGain where
  | selected (g : Gain)
  | unknown (draw : Nat)
deriving DecidableEq, Repr

/-- The external device, as the model sees it (R31, R71, R72). -/
structure Device where
  /-- `dev_gain` (R31). -/
  gain   : HeldGain
  /-- The levels the device presents at the next samples of DOUT, next first (the premise "device presents X", R71). -/
  levels : List Bool
  /-- How many free draws the device has made, of samples and of gains: the model's own counter (Assumptions 3 and 6). -/
  draws  : Nat
deriving DecidableEq, Repr

/-- What happens next to the block, decided outside it: a HOST transaction, an access of an integration, a turn of the SEQ
agent, or reset (R7, R30). -/
inductive Input where
  | host (t : Transaction)
  | bus (a : BusAccess)
  | seq
  | rst
deriving DecidableEq, Repr

structure State where
  /-- CTRL (R15). -/
  ctrl      : Ctrl
  /-- STATUS bits 7:2 (R19). -/
  flags     : Sticky
  /-- STATUS bits 11:8 (R19). -/
  book      : GainBook
  /-- OFFSET.OFS (R20). -/
  ofs       : Raw24
  /-- SCALE (R21). -/
  scale     : Scale
  /-- RESULT (R22). -/
  result    : Word
  /-- LAST_GRAMS (R23). -/
  lastGrams : Word
  /-- RAW bits 23:0 (R24). -/
  raw       : Raw24
  /-- The sequencer's phase (R27). -/
  phase     : Phase
  /-- The shift register (R28). -/
  shreg     : Raw24
  /-- The snapshot (R29). -/
  snap      : Snapshot
  /-- The SCK pin (R30, R67). -/
  sck       : Bool
  /-- `rdata` as the HOST last received it (R33). -/
  rdata     : Word
  /-- The external device (R31). -/
  dev       : Device
  /-- The inputs still to come, next first: the interleaving of the agents as plain data (R7, R44).  Assumption 2. -/
  inputs    : List Input
deriving DecidableEq, Repr

/-- Why the machine stops with a fault.  The block itself never faults (R115, R123). -/
inductive Fault where
  /-- An integration's aligned word access outside the block's 32 bytes (R34, R35): no register of the block is there.  Raised by
  `busTransaction`.  Safe: the model stops where the access concerns another device. -/
  | outsideBlock
deriving DecidableEq, Repr

/-- Why the model gives no meaning. -/
inductive Refusal where
  /-- An instruction without a meaning yet.  Raised by no arm of `exec`.  Safe. -/
  | notModelled (mnemonic : String)
  /-- An integration's access of another size than one 32-bit word (R40).  Raised by `busTransaction`.  Safe. -/
  | subWordAccess
  /-- An integration's access off a word boundary (R40).  Raised by `busTransaction`.  Safe. -/
  | misalignedAccess
deriving DecidableEq, Repr

/-- The machine right after reset (R132), before the first device transaction since the device's power-up, so that the
device's gain is the first free draw (R31; Assumption 6), and with no input pending.  The snapshot's reset value is unspecified
and unread (R29): zeros, Assumption 4.  `rdata` has no reset value in the spec: zero, Assumption 5. -/
def State.reset : State where
  ctrl      := ⟨.high, false, false⟩
  flags     := ⟨false, false, false, false, false, false⟩
  book      := ⟨.high, false, .high, false⟩
  ofs       := 0
  scale     := ⟨0, 0⟩
  result    := 0
  lastGrams := 0
  raw       := 0
  phase     := .idle
  shreg     := 0
  snap      := ⟨.readRaw, .high, false, 0, 0, 0⟩
  sck       := false
  rdata     := 0
  dev       := ⟨.unknown 0, [], 1⟩
  inputs    := []

end Sys2Proof.Machine
end

