-- ==== Sys2Proof/Machine/Operands.lean ====
section
/-! DEFINITION. Operand assembly and narrowing (spec/00_scope.md R9, spec/10_state.md R16, spec/30_encoding.md R52), and the
byte lanes of a word (spec/20_memory.md R38). -/

namespace Sys2Proof.Machine

/-- N(g), the extra pulses of a gain: 1 for HIGH, 3 for LOW (R16). -/
def extraPulses : Gain → Nat
  | .high => 1
  | .low => 3

/-- The pulses of one transaction, `24 + N(g)` (R16). -/
def totalPulses (g : Gain) : Nat := Config.dataClocks + extraPulses g

/-- The bit a gain is encoded as: 0 = HIGH, 1 = LOW (R15). -/
def gainBit : Gain → Bool
  | .high => false
  | .low => true

/-- The gain a bit encodes; both values are legal (R15). -/
def gainOfBit : Bool → Gain
  | false => .high
  | true => .low

/-- `bits_32(x)`, the 32-bit two's-complement pattern of an integer (R9). -/
def bits32 (x : Int) : Word := BitVec.ofInt 32 x

/-- `sext_24` of a sample or of OFS, as an integer (R9, R68). -/
def sampleOf (raw : Raw24) : Int := raw.toInt

/-- The GAIN operand of WR CTRL (R52). -/
def gainField (v : Word) : Gain := gainOfBit (v.getLsbD 0)

/-- The CAL request of WR CTRL (R52). -/
def calField (v : Word) : Bool := v.getLsbD 1

/-- The IE operand of WR CTRL (R52). -/
def ieField (v : Word) : Bool := v.getLsbD 2

/-- The OFS operand of WR OFFSET: `v[23:0]` (R52). -/
def ofsField (v : Word) : Raw24 := v.extractLsb' 0 24

/-- The K operand of WR SCALE: `v[15:0]` (R52). -/
def kField (v : Word) : Coeff := v.extractLsb' 0 16

/-- The S operand of WR SCALE: `v[20:16]` (R52). -/
def sField (v : Word) : Shift := v.extractLsb' 16 5

/-- `shreg[i] <- b` (R63). -/
def setBit (r : Raw24) (i : Nat) (b : Bool) : Raw24 :=
  if b then r ||| (1#24 <<< i) else r &&& ~~~(1#24 <<< i)

/-- The byte lane `j` of a register: bits `[8j+7:8j]` (R38). -/
def byteLane (w : Word) (j : Nat) : Byte := w.extractLsb' (8 * j) 8

end Sys2Proof.Machine
end

