-- ==== Sys2Proof/Machine/Flags.lean ====
section
/-! DEFINITION. STATUS (spec/10_state.md R19, R32): the sticky flags and how they are set and cleared, the bits that are
functions of the phase, and the interrupt line (spec/60_exceptions.md R115, R120). -/

namespace Sys2Proof.Machine

/-- Set one sticky flag; the others stay (R115). -/
def Sticky.set (f : Flag) (x : Sticky) : Sticky :=
  match f with
  | .done => { x with done := true }
  | .uncal => { x with uncal := true }
  | .overrun => { x with overrun := true }
  | .illegal => { x with illegal := true }
  | .aborted => { x with aborted := true }
  | .sat => { x with sat := true }

/-- Clear the sticky flags whose STATUS bit is 1 in `v` (R111). -/
def Sticky.clear (v : Word) (x : Sticky) : Sticky where
  done    := x.done && !v.getLsbD 2
  uncal   := x.uncal && !v.getLsbD 3
  overrun := x.overrun && !v.getLsbD 4
  illegal := x.illegal && !v.getLsbD 5
  aborted := x.aborted && !v.getLsbD 6
  sat     := x.sat && !v.getLsbD 7

/-- STATUS.BUSY: `phase != IDLE` (R19). -/
def busy (s : State) : Bool :=
  match s.phase with
  | .idle => false
  | .wait | .rise _ | .fall _ | .finish => true

/-- STATUS.WAIT: `phase = WAIT` (R19). -/
def waiting (s : State) : Bool :=
  match s.phase with
  | .wait => true
  | .idle | .rise _ | .fall _ | .finish => false

/-- The `irq` output, a level (R120). -/
def irq (s : State) : Bool := s.flags.done && s.ctrl.ie

/-- CTRL as it reads (R15, R36). -/
def ctrlWord (c : Ctrl) : Word :=
  0#29 ++ BitVec.ofBool c.ie ++ BitVec.ofBool c.cal ++ BitVec.ofBool (gainBit c.gain)

/-- STATUS as it reads (R19, R36). -/
def statusWord (s : State) : Word :=
  0#20 ++ BitVec.ofBool s.book.sgainV ++ BitVec.ofBool (gainBit s.book.sgain)
    ++ BitVec.ofBool s.book.pgainV ++ BitVec.ofBool (gainBit s.book.pgain)
    ++ BitVec.ofBool s.flags.sat ++ BitVec.ofBool s.flags.aborted ++ BitVec.ofBool s.flags.illegal
    ++ BitVec.ofBool s.flags.overrun ++ BitVec.ofBool s.flags.uncal ++ BitVec.ofBool s.flags.done
    ++ BitVec.ofBool (waiting s) ++ BitVec.ofBool (busy s)

/-- SCALE as it reads (R21, R36). -/
def scaleWord (c : Scale) : Word := 0#11 ++ c.s ++ c.k

end Sys2Proof.Machine
end

