-- ==== Sys2Proof/Machine/Ops.lean ====
section
/-! DEFINITION. The shared operations every meaning is written over: reporting a condition, reading a register, the pins, the
snapshot, reset, and which input comes next. -/

namespace Sys2Proof.Machine

/-- `raise FLAG()` (R115): set the sticky flag and change nothing else.  This is the block's whole "taking an exception": it
saves no state, changes no mode and transfers no control (R123), and there is no return from it (R124). -/
def raise (f : Flag) (s : State) : State := { s with flags := s.flags.set f }

/-- `phase <- p` (R10). -/
def enter (p : Phase) (s : State) : State := { s with phase := p }

/-- `SCK <- b` (R10). -/
def driveSck (b : Bool) (s : State) : State := { s with sck := b }

/-- `shreg[i] <- b` (R63). -/
def latchBit (i : Nat) (b : Bool) (s : State) : State := { s with shreg := setBit s.shreg i b }

/-- `DOUT()` (R10, R71): the level the device presents at this sample, `true` being 1.  It is the next presented level, or a
free draw where none is presented. -/
def sampleDout (s : State) : Bool × State :=
  match s.dev.levels with
  | b :: rest => (b, { s with dev := { s.dev with levels := rest } })
  | [] => (Config.freeDout s.dev.draws, { s with dev := { s.dev with draws := s.dev.draws + 1 } })

/-- The gain the device's next sample is converted under (R31, R72): the one the last complete transaction selected, or a
free draw of {HIGH, LOW, other} where no source gives it (93 row 3).  The model computes no analog value from it. -/
def conversionGain (d : Device) : Config.DevGain :=
  match d.gain with
  | .selected .high => .high
  | .selected .low => .low
  | .unknown n => Config.freeDevGain n

/-- `take_snapshot(op)` (R29, R107). -/
def takeSnapshot (op : Op) (s : State) : State :=
  { s with snap := ⟨op, s.ctrl.gain, s.ctrl.cal, s.ofs, s.scale.k, s.scale.s⟩ }

/-- The issue of a command that clocks the device: snapshot, then WAIT (R59, R107). -/
def beginTransaction (op : Op) (s : State) : State := enter .wait (takeSnapshot op s)

/-- `MemRead(A, 4)`: the read value of a register (R36). -/
def readReg (r : Reg) (s : State) : Word :=
  match r with
  | .ctrl => ctrlWord s.ctrl
  | .cmd => 0
  | .status => statusWord s
  | .offset => s.ofs.signExtend 32
  | .scale => scaleWord s.scale
  | .result => s.result
  | .lastGrams => s.lastGrams
  | .raw => s.raw.setWidth 32

/-- The byte the block holds at a byte address of a byte-addressed integration (R35, R38); none outside the block. -/
def byteAt (s : State) (addr : Nat) : Option Byte :=
  if Config.baseAddr ≤ addr ∧ addr < Config.baseAddr + 32 then
    some (byteLane (readReg (regAt (BitVec.ofNat 3 ((addr - Config.baseAddr) / 4))) s) ((addr - Config.baseAddr) % 4))
  else none

/-- The transaction an integration's access becomes (R35).  An access the port cannot express, of another size than one word or
off a word boundary, is refused by name wherever it lies, so also where it crosses the edge of the block (R40; 93 row 14).  A
word access is inside the block or wholly outside it, where it reaches no register (R34).
DESIGN CHOICE (Assumption 9): where both refusals apply, the size is named. -/
def busTransaction (a : BusAccess) : Host.Outcome Transaction Fault Refusal :=
  if !a.wholeWord then .refused .subWordAccess
  else if !a.aligned then .refused .misalignedAccess
  else if !a.inBlock then .fault .outsideBlock
  else .next ⟨descriptor a.we (regAt (BitVec.ofNat 3 ((a.addr - Config.baseAddr) / 4))), a.wdata⟩

/-- The pulse train is in progress: RISE, FALL or FINISH (R133). -/
def clocking (p : Phase) : Bool :=
  match p with
  | .rise _ | .fall _ | .finish => true
  | .idle | .wait => false

/-- What a reset of the block leaves of the device (R133, R134): it is not reset, and a pulse train cut short leaves it under
a gain no source gives, a fresh free draw.  Assumption 6. -/
def deviceAfterReset (p : Phase) (d : Device) : Device :=
  if clocking p then { d with gain := .unknown d.draws, draws := d.draws + 1 } else d

/-- `rst` (R132): every piece of block state takes its reset value, whatever the phase.  The device, what the host has read
and the inputs to come are outside the block. -/
def assertReset (s : State) : State :=
  { State.reset with dev := deviceAfterReset s.phase s.dev, rdata := s.rdata, inputs := s.inputs }

/-- Which input comes next (R7, R44).  With none pending the SEQ agent alone goes on.  Assumption 2. -/
def nextInput (s : State) : Input × State :=
  match s.inputs with
  | [] => (.seq, s)
  | x :: rest => (x, { s with inputs := rest })

end Sys2Proof.Machine
end

