-- ==== Sys2Proof/Machine/Commands.lean ====
section
/-! DEFINITION. Command issue (spec/44_control.md R107 .. R110, spec/60_exceptions.md R117, R121): the command decoder
behind WR CMD, and each command on its own.  A command is issued by writing its word to CMD, so `.readRaw` and
`.wrCmd 0x00000001` do the same; each is written from its own rule. -/

namespace Sys2Proof.Machine

/-- Every command but ABORT is dropped with OVERRUN while BUSY (R117, R121); else it acts. -/
def unlessBusy (act : State → State) (s : State) : State := if busy s then raise .overrun s else act s

/-- `abort_busy()` (R109): in WAIT the command ends with ABORTED and DONE; during the pulse train the word is ignored. -/
def abortBusy (s : State) : State :=
  match s.phase with
  | .wait => enter .idle (raise .aborted (raise .done s))
  | .idle | .rise _ | .fall _ | .finish => s

/-- A reserved command word while BUSY = 0 (R110). -/
def reservedWord (s : State) : State := raise .illegal (raise .done s)

/-- MEASURE's issue (R83, R84): uncalibrated, it completes at once with RESULT = 0 and UNCAL and clocks nothing. -/
def issueMeasure (s : State) : State :=
  let t := takeSnapshot .measure s
  if t.snap.cal then enter .wait t else raise .uncal (raise .done { t with result := 0 })

/-- ABORT by phase (R109). -/
def abortCommand (s : State) : State :=
  match s.phase with
  | .idle => raise .done s
  | .wait | .rise _ | .fall _ | .finish => abortBusy s

/-- The command decoder acting on a word while BUSY = 0 (R107). -/
def issueWord (v : Word) (s : State) : State :=
  match decodeCmd v with
  | .error _ => reservedWord s
  | .ok .readRaw => beginTransaction .readRaw s
  | .ok .tare => beginTransaction .tare s
  | .ok .readCal => beginTransaction .readCal s
  | .ok .measure => issueMeasure s
  | .ok .nop | .ok .abort => raise .done s
  | .ok (.rd _) | .ok (.wrCtrl _) | .ok (.wrCmd _) | .ok (.wrStatus _) | .ok (.wrOffset _) | .ok (.wrScale _)
  | .ok (.wrResult _) | .ok (.wrLastGrams _) | .ok (.wrRaw _) => reservedWord s

/-- WR CMD (R107, R121): while BUSY exactly 0x0000000F is ABORT and every other word is OVERRUN; else the decoder acts. -/
def execWrCmd (v : Word) (s : State) : Host.Outcome State Fault Refusal :=
  .next <|
    if busy s then
      if v = 0x0000000F#32 then abortBusy s else raise .overrun s
    else issueWord v s

/-- NOP (R108). -/
def execNop (s : State) : Host.Outcome State Fault Refusal := .next (unlessBusy (raise .done) s)

/-- READ_RAW (R73): the issue; the transaction runs in the SEQ steps that follow. -/
def execReadRaw (s : State) : Host.Outcome State Fault Refusal := .next (unlessBusy (beginTransaction .readRaw) s)

/-- TARE (R80): the issue. -/
def execTare (s : State) : Host.Outcome State Fault Refusal := .next (unlessBusy (beginTransaction .tare) s)

/-- READ_CAL (R82): the issue. -/
def execReadCal (s : State) : Host.Outcome State Fault Refusal := .next (unlessBusy (beginTransaction .readCal) s)

/-- MEASURE (R83, R84): the issue. -/
def execMeasure (s : State) : Host.Outcome State Fault Refusal := .next (unlessBusy issueMeasure s)

/-- ABORT (R109): never OVERRUN. -/
def execAbort (s : State) : Host.Outcome State Fault Refusal := .next (abortCommand s)

end Sys2Proof.Machine
end

