-- ==== Sys2Proof/Machine/Registers.lean ====
section
/-! DEFINITION. Reads of a register and writes to every register but CMD (spec/20_memory.md R36,
spec/41_calibration_state.md R74, R77, R78, spec/44_control.md R111, R112). -/

namespace Sys2Proof.Machine

/-- RD: the host receives the register's read value; no state of the block changes (R36). -/
def execRd (r : Reg) (s : State) : Host.Outcome State Fault Refusal :=
  .next { s with rdata := readReg r s }

/-- WR CTRL (R74): CAL is set only while K is non-zero. -/
def execWrCtrl (v : Word) (s : State) : Host.Outcome State Fault Refusal :=
  .next { s with ctrl := ⟨gainField v, calField v && s.scale.k != 0, ieField v⟩ }

/-- WR STATUS (R111): write 1 to clear. -/
def execWrStatus (v : Word) (s : State) : Host.Outcome State Fault Refusal :=
  .next { s with flags := s.flags.clear v }

/-- WR OFFSET (R77). -/
def execWrOffset (v : Word) (s : State) : Host.Outcome State Fault Refusal :=
  .next { s with ofs := ofsField v }

/-- WR SCALE (R78): a zero coefficient clears CAL. -/
def execWrScale (v : Word) (s : State) : Host.Outcome State Fault Refusal :=
  .next { s with
    scale := ⟨kField v, sField v⟩
    ctrl := { s.ctrl with cal := s.ctrl.cal && kField v != 0 } }

/-- WR RESULT: ignored (R112). -/
def execWrResult (_v : Word) (s : State) : Host.Outcome State Fault Refusal := .next s

/-- WR LAST_GRAMS: ignored (R112). -/
def execWrLastGrams (_v : Word) (s : State) : Host.Outcome State Fault Refusal := .next s

/-- WR RAW: ignored (R112). -/
def execWrRaw (_v : Word) (s : State) : Host.Outcome State Fault Refusal := .next s

end Sys2Proof.Machine
end

