-- ==== Sys2Proof/Machine/Dispatch.lean ====
section
/-! DEFINITION. One arm per instruction, each one direct call of its meaning. -/

namespace Sys2Proof.Machine

def exec (i : Instr) (s : State) : Host.Outcome State Fault Refusal :=
  match i with
  | .rd r => Sys2Proof.Machine.execRd r s
  | .wrCtrl v => Sys2Proof.Machine.execWrCtrl v s
  | .wrCmd v => Sys2Proof.Machine.execWrCmd v s
  | .wrStatus v => Sys2Proof.Machine.execWrStatus v s
  | .wrOffset v => Sys2Proof.Machine.execWrOffset v s
  | .wrScale v => Sys2Proof.Machine.execWrScale v s
  | .wrResult v => Sys2Proof.Machine.execWrResult v s
  | .wrLastGrams v => Sys2Proof.Machine.execWrLastGrams v s
  | .wrRaw v => Sys2Proof.Machine.execWrRaw v s
  | .nop => Sys2Proof.Machine.execNop s
  | .readRaw => Sys2Proof.Machine.execReadRaw s
  | .tare => Sys2Proof.Machine.execTare s
  | .readCal => Sys2Proof.Machine.execReadCal s
  | .measure => Sys2Proof.Machine.execMeasure s
  | .abort => Sys2Proof.Machine.execAbort s

end Sys2Proof.Machine
end

