-- ==== Sys2Proof/Machine/Pipeline.lean ====
section
/-! DEFINITION. The fixed-point pipeline (spec/42_weight_pipeline.md R82, R83, R90): exact on integers, narrowed once at
the end. -/

namespace Sys2Proof.Machine

/-- `diff = sext_24(raw24) - offset_l`, exact (R82). -/
def difference (raw : Raw24) (p : Snapshot) : Int := sampleOf raw - sampleOf p.ofs

/-- `rnd = 2^(s_l - 1)` for `s_l > 0`, else 0 (R83). -/
def roundTerm (s : Shift) : Int := if s = 0 then 0 else ((2 ^ (s.toNat - 1) : Nat) : Int)

/-- `acc = diff * k_l + rnd`, exact (R83, R85). -/
def accumulator (raw : Raw24) (p : Snapshot) : Int := difference raw p * p.k.toInt + roundTerm p.s

/-- `x >>a n = floor(x / 2^n)` (R9): division of integers by a positive number rounds toward minus infinity. -/
def shiftRightA (x : Int) (n : Nat) : Int := x / ((2 ^ n : Nat) : Int)

/-- `w = acc >>a s_l` (R83). -/
def weight (raw : Raw24) (p : Snapshot) : Int := shiftRightA (accumulator raw p) p.s.toNat

/-- `sat_32(x)` (R9). -/
def sat32 (x : Int) : Int := min (max x (-2147483648)) 2147483647

/-- `r = sat_32(w)` (R83). -/
def weightSat (raw : Raw24) (p : Snapshot) : Int := sat32 (weight raw p)

end Sys2Proof.Machine
end

