-- ==== Sys2Proof/Machine/Sequencer.lean ====
section
/-! DEFINITION. The SEQ agent (spec/40_bitreader.md R59 .. R70): one poll, one clock edge or one completion a step. -/

namespace Sys2Proof.Machine

/-- WAIT: one sample of DOUT; 0 is ready and starts the pulse train, 1 leaves the phase (R60). -/
def pollReady (s : State) : State :=
  match sampleDout s with
  | (true, t) => t
  | (false, t) => enter (.rise 0) t

/-- RISE(k): `SCK <- 1`, then FALL(k) (R62). -/
def raiseClock (k : Nat) (s : State) : State := enter (.fall k) (driveSck true s)

/-- The data bit of pulse `k < 24`, MSB first: `shreg[23 - k] <- DOUT()` (R63). -/
def captureBit (k : Nat) (s : State) : State :=
  match sampleDout s with
  | (b, t) => latchBit (23 - k) b t

/-- The phase after pulse `k`: the next pulse while `k + 1 < 24 + n_l`, else FINISH (R63). -/
def afterPulse (k : Nat) (g : Gain) : Phase := if k + 1 < totalPulses g then .rise (k + 1) else .finish

/-- FALL(k): sample a data pulse, then `SCK <- 0` and the next pulse or FINISH (R63, R65). -/
def lowerClock (k : Nat) (s : State) : State :=
  enter (afterPulse k s.snap.gain)
    (driveSck false (if k < Config.dataClocks then captureBit k s else s))

/-- The part every completion has (R69, R72): RAW, the gain bookkeeping, and the gain the device now has selected. -/
def recordTransaction (s : State) : State :=
  { s with
    raw := s.shreg
    book := ⟨s.snap.gain, true, s.book.pgain, s.book.pgainV⟩
    dev := { s.dev with gain := .selected s.snap.gain } }

/-- MEASURE's completion (R83): RESULT and LAST_GRAMS, and SAT where the weight was narrowed. -/
def deliverWeight (s : State) : State :=
  { s with
    result := bits32 (weightSat s.shreg s.snap)
    lastGrams := bits32 (weightSat s.shreg s.snap)
    flags := if weightSat s.shreg s.snap = weight s.shreg s.snap then s.flags else s.flags.set .sat }

/-- The part of a completion that depends on `op_l` (R69). -/
def deliver (s : State) : State :=
  match s.snap.op with
  | .readRaw => { s with result := bits32 (sampleOf s.shreg) }
  | .tare => { s with ofs := s.shreg }
  | .readCal => { s with result := bits32 (difference s.shreg s.snap) }
  | .measure => deliverWeight s

/-- FINISH: the completion, in one atomic step (R41, R69). -/
def complete (s : State) : State := enter .idle (raise .done (deliver (recordTransaction s)))

/-- One turn of the SEQ agent (R27, R59); in IDLE it has no step. -/
def seqStep (s : State) : State :=
  match s.phase with
  | .idle => s
  | .wait => pollReady s
  | .rise k => raiseClock k s
  | .fall k => lowerClock k s
  | .finish => complete s

end Sys2Proof.Machine
end

