-- ==== Sys2Proof/Machine/Step.lean ====
section
/-! DEFINITION. One step of the machine: the next input is taken, and the agent it names moves (spec/00_scope.md R7,
spec/20_memory.md R44).  A HOST transaction is decoded and run; the SEQ agent and reset act on their own. -/

namespace Sys2Proof.Machine

/-- The effect of one input on the state that has consumed it. -/
def act (x : Input) (s : State) : Host.Outcome State Fault Refusal :=
  match x with
  | .host t => exec (decodeBus t) s
  | .bus a =>
    match busTransaction a with
    | .next t => exec (decodeBus t) s
    | .fault f => .fault f
    | .refused r => .refused r
  | .seq => .next (seqStep s)
  | .rst => .next (assertReset s)

/-- One step. -/
def step (s : State) : Host.Outcome State Fault Refusal := act (nextInput s).1 (nextInput s).2

/-- The instruction of an opcode-table row as the next HOST transaction: the block has no program memory (R47), so what step
fetches is the host's next transaction, here placed before all other inputs.  Assumption 8. -/
def State.withFetchWord (s : State) (nbits w : Nat) : State :=
  { s with inputs := .host (tableCode nbits w).onPort :: s.inputs }

end Sys2Proof.Machine
end

