-- ==== Sys2Proof/Machine/HostProgram.lean ====
section
/-! DEFINITION. The HOST agent running a program over the block: the host syntax and pseudo-instructions of
spec/30_encoding.md R57, R58, and the reference program `calibrate()` of spec/43_calibration_procedure.md R93 .. R104.

The scope (spec/00_scope.md R4) leaves this software out of the block, so nothing here is part of `Machine.State` or of
`Machine.step`.  It is a closed system beside them: a host program whose transactions run by `exec`, and SEQ turns between
them.  Host arithmetic on the scale factor is exact (rational), Assumption 11. -/

namespace Sys2Proof.Machine

/-- A host variable of the program: `t` holds what a read of a pseudo-instruction returns, `x` a result. -/
inductive HostVar where
  | t | x
deriving DecidableEq, Repr

/-- A host-side value written to a register (R57). -/
inductive HostExpr where
  | lit (w : Word)
  /-- `(v & ~clear) | set` -/
  | masked (v : HostVar) (clear set : Word)
  /-- The SCALE word computed from `x` by step 7, for a result with `f` fractional bits (R102). -/
  | scaleWord (f : Nat)
deriving DecidableEq, Repr

/-- A host-side condition. -/
inductive HostCond where
  | bitClear (v : HostVar) (i : Nat)
  | bitSet (v : HostVar) (i : Nat)
  /-- `abs(sext_32(v)) > DETECT_THRESHOLD` (R100) -/
  | exceeds (v : HostVar)
  /-- `host_ks` fails on the factor of `x`, for a result with `f` fractional bits (R103) -/
  | scaleFails (f : Nat)
deriving DecidableEq, Repr

/-- A message record: at most 59 characters, the terminator not counted (R93). -/
structure Record where
  text : String
  fits : text.length ≤ 59
deriving DecidableEq, Repr

/-- One line of a host program (R57).  A jump is relative to its own line. -/
inductive Line where
  | read (dst : HostVar) (r : Reg)
  | write (r : Reg) (e : HostExpr)
  | jumpIf (c : HostCond) (by_ : Int)
  | jump (by_ : Int)
  | send (r : Record)
  | waitPeriod (ms : Nat)
deriving DecidableEq, Repr

/-- What the host did that no register shows: messages handed to `trySend` and waits begun (R93, R94). -/
inductive HostAct where
  | sent (r : Record)
  | waited (ms : Nat)
deriving DecidableEq, Repr

/-- The host: its line, its variables, and its log, newest first. -/
structure HostState where
  pc  : Nat
  t   : Word
  x   : Word
  log : List HostAct
deriving DecidableEq, Repr

/-- A host and its block. -/
structure System where
  host  : HostState
  block : State
deriving DecidableEq, Repr

/-- `round_half_away`, to the nearest integer with ties away from zero (R103). -/
def roundHalfAway (q : ℚ) : Int := if 0 ≤ q then (q + 1 / 2).floor else -((-q + 1 / 2).floor)

/-- The coefficient `host_ks` tries at shift `s` (R103).  DESIGN CHOICE (Assumption 11): R103 gives it for a non-zero `sf` only;
for `sf = 0` the quotient is 0, as rational division makes it, so the coefficient is 0 at every shift. -/
def hostCoeff (sf : ℚ) (f s : Nat) : Int := roundHalfAway (2 ^ (s + f) / sf)

/-- A coefficient SCALE.K can hold, and not 0 (R103). -/
def coeffFits (k : Int) : Bool := decide (-32768 ≤ k) && decide (k ≤ 32767) && decide (k ≠ 0)

/-- `host_ks` from shift `s` downward (R103). -/
def hostKsFrom (sf : ℚ) (f : Nat) : Nat → Option (Int × Nat)
  | 0 => if coeffFits (hostCoeff sf f 0) then some (hostCoeff sf f 0, 0) else none
  | s + 1 =>
    if coeffFits (hostCoeff sf f (s + 1)) then some (hostCoeff sf f (s + 1), s + 1) else hostKsFrom sf f s

/-- `host_ks(sf, F)`: the largest shift 31 .. 0 whose coefficient fits; none is a calibration error (R103).  DESIGN CHOICE
(Assumption 11): `sf = 0`, of which R103 says nothing, is such an error, so that CAL is left 0. -/
def hostKs (sf : ℚ) (f : Nat) : Option (Int × Nat) := hostKsFrom sf f 31

/-- `sf = float(sext_32(x)) / REF_MASS_G` (R102). -/
def scaleFactor (x : Word) : ℚ := (x.toInt : ℚ) / Config.refMassG

/-- The SCALE word of (K, S) (R102). -/
def scaleWordOf (k : Int) (s : Nat) : Word := scaleWord ⟨BitVec.ofInt 16 k, BitVec.ofNat 5 s⟩

/-- `kilograms = r / (2^F * 1000)` (R92). -/
def kilograms (r : Word) (f : Nat) : ℚ := (r.toInt : ℚ) / (2 ^ f * 1000)

/-- The weight-detection test of step 5 (R100). -/
def exceedsThreshold (x : Word) : Bool := decide (Config.detectThreshold < |x.toInt|)

/-- The value of a host variable. -/
def HostState.var (h : HostState) : HostVar → Word
  | .t => h.t
  | .x => h.x

/-- The host receives a value. -/
def HostState.assign (v : HostVar) (w : Word) (h : HostState) : HostState :=
  match v with
  | .t => { h with t := w }
  | .x => { h with x := w }

/-- The value of an expression.  The scale word is 0 where `host_ks` fails; the program does not write it then. -/
def HostState.value (h : HostState) : HostExpr → Word
  | .lit w => w
  | .masked v clear set => h.var v &&& ~~~clear ||| set
  | .scaleWord f =>
    match hostKs (scaleFactor h.x) f with
    | some (k, s) => scaleWordOf k s
    | none => 0

/-- Whether a condition holds. -/
def HostState.holds (h : HostState) : HostCond → Bool
  | .bitClear v i => !(h.var v).getLsbD i
  | .bitSet v i => (h.var v).getLsbD i
  | .exceeds v => exceedsThreshold (h.var v)
  | .scaleFails f => (hostKs (scaleFactor h.x) f).isNone

/-- Go on with the line `d` lines away. -/
def HostState.jump (d : Int) (h : HostState) : HostState := { h with pc := ((h.pc : Int) + d).toNat }

/-- A host action recorded, and the next line. -/
def HostState.record (a : HostAct) (h : HostState) : HostState := { h with log := a :: h.log }.jump 1

/-- What the outbound channel delivers of host actions, oldest first, of which the first message has number `n`: each message
is delivered or, the queue being full, dropped (R93; 93 row 8).  Assumption 12. -/
def deliveredFrom (n : Nat) : List HostAct → List Record
  | [] => []
  | .sent r :: rest => if Config.freeDelivery n then r :: deliveredFrom (n + 1) rest else deliveredFrom (n + 1) rest
  | .waited _ :: rest => deliveredFrom n rest

/-- The records the channel has delivered, oldest first (R93). -/
def HostState.delivered (h : HostState) : List Record := deliveredFrom 0 h.log.reverse

/-- One transaction of the host on its block. -/
def System.transact (i : Instr) (k : State → HostState) (σ : System) : System :=
  match exec i σ.block with
  | .next b => ⟨k b, b⟩
  | .fault _ | .refused _ => σ

/-- One line of a host program.  `send` hands its record to the channel and goes on at once, whatever becomes of the record
(R93). -/
def System.line (l : Line) (σ : System) : System :=
  match l with
  | .read v r => σ.transact (.rd r) fun b => (σ.host.assign v b.rdata).jump 1
  | .write r e => σ.transact (writeTo r (σ.host.value e)) fun _ => σ.host.jump 1
  | .jumpIf c d => { σ with host := if σ.host.holds c then σ.host.jump d else σ.host.jump 1 }
  | .jump d => { σ with host := σ.host.jump d }
  | .send r => { σ with host := σ.host.record (.sent r) }
  | .waitPeriod ms => { σ with host := σ.host.record (.waited ms) }

/-- Which agent moves (R7). -/
inductive Turn where
  | host | seq
deriving DecidableEq, Repr

/-- One turn of the closed system; a host past its last line has none (R147). -/
def System.turn (prog : List Line) (who : Turn) (σ : System) : System :=
  match who with
  | .seq => { σ with block := seqStep σ.block }
  | .host =>
    match prog[σ.host.pc]? with
    | some l => σ.line l
    | none => σ

/-- A run under a schedule: any interleaving of the two agents (R44). -/
def System.run (prog : List Line) : List Turn → System → System
  | [], σ => σ
  | who :: rest, σ => System.run prog rest (σ.turn prog who)

/-- `cmd OP`: the command word written to CMD (R57). -/
def cmdLine (i : Instr) : Line := .write .cmd (.lit (encode i).onPort.wdata)

/-- `setgain g` (R58). -/
def setGain (g : Gain) : List Line :=
  [.read .t .ctrl, .write .ctrl (.masked .t 1 (match g with | .high => 0 | .low => 1))]

/-- `setcal b` (R58). -/
def setCal (b : Bool) : List Line := [.read .t .ctrl, .write .ctrl (.masked .t 2 (if b then 2 else 0))]

/-- `wait_idle` (R58). -/
def waitIdle : List Line := [.read .t .status, .jumpIf (.bitSet .t 0) (-1)]

/-- `wait_done` (R58). -/
def waitDone : List Line := [.read .t .status, .jumpIf (.bitClear .t 2) (-1), .write .status (.lit 0x4)]

/-- `clrflags` (R58). -/
def clrFlags : List Line := [.write .status (.lit 0xFC)]

/-- `docmd OP` (R58). -/
def doCmd (i : Instr) : List Line := cmdLine i :: waitDone

/-- `x = docmd OP` (R58). -/
def doCmdResult (i : Instr) : List Line := doCmd i ++ [.read .x .result]

/-- The tare status message, cut to what a record holds (R93, R98).  Assumption 12. -/
def tareMessage : Record := ⟨String.ofList (Config.tareText.toList.take 59), by simp⟩

/-- `decimal(i)` of the countdown, one digit (R97). -/
def digit (i : Fin 10) : Record := ⟨String.singleton (Nat.digitChar i.val), by simp⟩

/-- Step 1, Announce (R96). -/
def announce : List Line := .send ⟨"Calibrating", by decide⟩ :: setCal false

/-- Step 2, CountdownToZero (R97): each number before its wait (R95). -/
def countdown : List Line :=
  [.send ⟨"Remove all weight.", by decide⟩, .send ⟨"Setting zero point in:", by decide⟩]
    ++ [4, 3, 2, 1, 0].flatMap fun i => [.send (digit i), .waitPeriod 1000]

/-- Step 3, Tare (R98). -/
def tareStep : List Line := .send tareMessage :: clrFlags ++ doCmd .tare

/-- Step 4, PromptWeight (R99). -/
def promptWeight : List Line := [.send ⟨"Put a weight between 100g and 500g on the scale.", by decide⟩]

/-- Step 5, WaitForWeight (R100): read, test, wait; no timeout. -/
def waitForWeight : List Line :=
  doCmdResult .readCal ++ [.jumpIf (.exceeds .x) 3, .waitPeriod 200, .jump (-7)]

/-- Step 6, SettleDelay (R101). -/
def settleDelay : List Line := [.send ⟨"Weight detected.", by decide⟩, .waitPeriod 2000]

/-- Step 7, ComputeFactor (R102), for a result with `f` fractional bits; where `host_ks` fails, CAL is left 0 and the program
ends (R103). -/
def computeFactor (f : Nat) : List Line :=
  doCmdResult .readCal ++ [.jumpIf (.scaleFails f) 4, .write .scale (.scaleWord f)] ++ setCal true

/-- `calibrate()` (R96 .. R102), with `F` a parameter of the host program (93 row 16); the reference program is
`calibrate 0` (R103). -/
def calibrate (f : Nat) : List Line :=
  announce ++ countdown ++ tareStep ++ promptWeight ++ waitForWeight ++ settleDelay ++ computeFactor f

/-- A known calibration loaded by the host (R135 step 3): OFFSET, SCALE, then CAL. -/
def loadCalibration (ofs scale : Word) : List Line :=
  [.write .offset (.lit ofs), .write .scale (.lit scale)] ++ setCal true

/-- The boot order (R135): CTRL, the flags cleared before the first command waited for, one discarded READ_RAW, and then
`loadCalibration` or `calibrate f`. -/
def boot (ctrl : Word) (calibration : List Line) : List Line :=
  .write .ctrl (.lit ctrl) :: clrFlags ++ doCmd .readRaw ++ calibration ++ clrFlags

/-- The run of a program has ended: the host is past its last line and the block is idle (R147). -/
def System.ended (prog : List Line) (σ : System) : Bool := decide (prog.length ≤ σ.host.pc) && !busy σ.block

/-- The host at the first line of its program, with nothing sent.  DESIGN CHOICE (Assumption 12): the spec gives a host variable
no value before its first assignment (R57); `t` and `x` start at 0. -/
def HostState.start : HostState := ⟨0, 0, 0, []⟩

end Sys2Proof.Machine
end

