-- ==== Sys2Proof/Safety.lean ====
section
/-! DEFINITION. The terms the statements are written in: the invariant of the block, what a device presents, what the host
can and cannot reach of a transaction in progress, and the two measures of a pulse train. -/

namespace Sys2Proof.Machine

/-- Whether the phase is FALL, the only one in which SCK is high (R67). -/
def Phase.isFall : Phase → Bool
  | .fall _ => true
  | .idle | .wait | .rise _ | .finish => false

/-- The pulse index a phase carries, if any (R27). -/
def Phase.pulse : Phase → Option Nat
  | .rise k | .fall k => some k
  | .idle | .wait | .finish => none

/-- What every step of the block keeps. -/
structure Inv (s : State) : Prop where
  /-- CAL is 1 only while K is non-zero (R17). -/
  cal_coeff : s.ctrl.cal = true → s.scale.k ≠ 0
  /-- `0 <= k < 24 + n_l` (R27). -/
  pulse_bound : ∀ k, s.phase.pulse = some k → k < totalPulses s.snap.gain
  /-- SCK is 1 only from a RISE(k) step to the following FALL(k) step (R67). -/
  sck_level : s.sck = s.phase.isFall
  /-- PGAIN mirrors `dev_gain` as far as the block knows it (R31). -/
  gain_mirror : s.book.pgainV = true → s.dev.gain = .selected s.book.pgain
  /-- A gain no source gives is a draw already made, so no later draw repeats it (R31, R133). -/
  gain_drawn : ∀ n, s.dev.gain = .unknown n → n < s.dev.draws
  /-- SGAIN is PGAIN of an earlier transaction, so it is valid only after PGAIN (R69). -/
  sgain_valid : s.book.sgainV = true → s.book.pgainV = true
  /-- A MEASURE in progress was calibrated at issue, with a non-zero coefficient (R83). -/
  measure_calibrated : s.phase ≠ .idle → s.snap.op = .measure → s.snap.cal = true ∧ s.snap.k ≠ 0

/-- A run of the machine: `n` steps, stopping at the first fault or refusal. -/
def run (n : Nat) (s : State) : Host.Outcome State Fault Refusal := Host.Core.run Sys2Proof.core n s

/-- The instruction the next step runs, where the next input is a transaction. -/
def nextInstr (s : State) : Option Instr :=
  match (nextInput s).1 with
  | .host t => some (decodeBus t)
  | .bus a =>
    match busTransaction a with
    | .next t => some (decodeBus t)
    | .fault _ | .refused _ => none
  | .seq | .rst => none

/-- The 24 bits of a sample in the order the device sends them, first bit 23 (R39). -/
def msbFirst (x : Raw24) : List Bool := (List.range 24).map fun i => x.getLsbD (23 - i)

/-- The premise "the device presents X" (R71): not ready at `polls` polls, then ready, then the bits of X. -/
def presents (polls : Nat) (x : Raw24) : List Bool := List.replicate polls true ++ false :: msbFirst x

/-- The SEQ steps of one transaction: the polls, two edges a pulse, and the completion (R59). -/
def transactionSteps (polls : Nat) (g : Gain) : Nat := polls + 1 + 2 * totalPulses g + 1

/-- `n` turns of the SEQ agent. -/
def seqSteps : Nat → State → State
  | 0, s => s
  | n + 1, s => seqSteps n (seqStep s)

/-- The rising edges of SCK in `n` turns of the SEQ agent (R65). -/
def risingEdges : Nat → State → Nat
  | 0, _ => 0
  | n + 1, s => (if !s.sck && (seqStep s).sck then 1 else 0) + risingEdges n (seqStep s)

/-- The samples of DOUT that `n` turns of the SEQ agent take (R60, R63). -/
def samples : Nat → State → Nat
  | 0, _ => 0
  | n + 1, s =>
    (match s.phase with
      | .wait => 1
      | .fall k => if k < Config.dataClocks then 1 else 0
      | .idle | .rise _ | .finish => 0) + samples n (seqStep s)

/-- The block clocks one SEQ step holds or waits (R60, R62, R63).  A measure only: the model has no time (R6).
DESIGN CHOICE (Assumption 1): R60 gives the interval after a poll that reads not ready, and no rule gives the clocks of the poll
that reads ready, nor those of the completion; a poll counts `T_POLL_CYCLES` whatever it reads, and the completion nothing. -/
def stepClocks : Phase → Nat
  | .wait => Config.tPollCycles
  | .rise _ | .fall _ => Config.tHoldCycles
  | .idle | .finish => 0

/-- The block clocks held or waited in `n` turns of the SEQ agent (R145). -/
def seqClocks : Nat → State → Nat
  | 0, _ => 0
  | n + 1, s => stepClocks s.phase + seqClocks n (seqStep s)

/-- What a transaction in progress computes with and what it leaves (R66, R70): everything a SEQ step reads or writes, but
the registers and flags the host may also write. -/
structure SeqView where
  phase     : Phase
  shreg     : Raw24
  snap      : Snapshot
  sck       : Bool
  book      : GainBook
  raw       : Raw24
  result    : Word
  lastGrams : Word
  dev       : Device
deriving DecidableEq, Repr

/-- The sequencer's view of a state. -/
def seqView (s : State) : SeqView :=
  ⟨s.phase, s.shreg, s.snap, s.sck, s.book, s.raw, s.result, s.lastGrams, s.dev⟩

/-- A host transaction that writes no command word. -/
def commandless (t : Transaction) : Bool :=
  match decodeBus t with
  | .wrCmd _ => false
  | .rd _ | .wrCtrl _ | .wrStatus _ | .wrOffset _ | .wrScale _ | .wrResult _ | .wrLastGrams _ | .wrRaw _ => true
  | .nop | .readRaw | .tare | .readCal | .measure | .abort => false

/-- An input that is a turn of the SEQ agent. -/
def Input.isSeq : Input → Bool
  | .seq => true
  | .host _ | .bus _ | .rst => false

/-- A turn of the SEQ agent, or a host transaction that writes no command word. -/
def Input.quiet : Input → Bool
  | .seq => true
  | .host t => commandless t
  | .bus _ | .rst => false

end Sys2Proof.Machine
end

