-- ==== Sys2Proof/Certificates/Slice0/Obligations.lean ====
section
/-! DEFINITION. The statements for the provers.  Each says which rule of spec/ it formalises; the equations `next { s with … }`
are the frame as well: every register, flag and pin that is not named keeps its value. -/

open Sys2Proof Sys2Proof.Machine

/-! ## Encoding -/

/-- Decoding the encoding of an instruction gives it back, for every instruction and every operand. -/
def Obligations.DecodeOfEncodeIsIdentity : Prop := ∀ i : Instr, decode (encode i) = .ok i

/-- No bit a decoder reads is dropped: the bus decoder loses only the `wdata` of a read, and a command is selected by its
own word alone (R54). -/
def Obligations.EncodeOfDecodeLosesNothing : Prop :=
  (∀ t : Transaction, (encode (decodeBus t)).onPort = ⟨t.desc, if t.desc.toNat < 8 then 0 else t.wdata⟩)
    ∧ ∀ (v : Word) (i : Instr), decodeCmd v = .ok i → encode i = .cmd v

/-- The descriptor map, all 16 descriptors written out (R53). -/
def Obligations.DescriptorMapAsTabled : Prop :=
  ∀ v : Word,
    decodeBus ⟨0x0#4, v⟩ = .rd .ctrl ∧ decodeBus ⟨0x1#4, v⟩ = .rd .cmd
      ∧ decodeBus ⟨0x2#4, v⟩ = .rd .status ∧ decodeBus ⟨0x3#4, v⟩ = .rd .offset
      ∧ decodeBus ⟨0x4#4, v⟩ = .rd .scale ∧ decodeBus ⟨0x5#4, v⟩ = .rd .result
      ∧ decodeBus ⟨0x6#4, v⟩ = .rd .lastGrams ∧ decodeBus ⟨0x7#4, v⟩ = .rd .raw
      ∧ decodeBus ⟨0x8#4, v⟩ = .wrCtrl v ∧ decodeBus ⟨0x9#4, v⟩ = .wrCmd v
      ∧ decodeBus ⟨0xA#4, v⟩ = .wrStatus v ∧ decodeBus ⟨0xB#4, v⟩ = .wrOffset v
      ∧ decodeBus ⟨0xC#4, v⟩ = .wrScale v ∧ decodeBus ⟨0xD#4, v⟩ = .wrResult v
      ∧ decodeBus ⟨0xE#4, v⟩ = .wrLastGrams v ∧ decodeBus ⟨0xF#4, v⟩ = .wrRaw v

/-- The command map: a word selects a command only when it equals the table's value exactly (R54). -/
def Obligations.CommandMapIsExact : Prop :=
  ∀ (v : Word) (i : Instr), decodeCmd v = .ok i ↔
    (v = 0x00000000#32 ∧ i = .nop) ∨ (v = 0x00000001#32 ∧ i = .readRaw) ∨ (v = 0x00000002#32 ∧ i = .tare)
      ∨ (v = 0x00000003#32 ∧ i = .readCal) ∨ (v = 0x00000004#32 ∧ i = .measure) ∨ (v = 0x0000000F#32 ∧ i = .abort)

/-- Which words are reserved (`OPC` in 0x5 .. 0xE, or `RSV` not 0), and what a write of one does: idle, ILLEGAL and DONE and
nothing else; busy, OVERRUN and nothing else (R55, R110). -/
def Obligations.ReservedWordsOnlyRaiseFlags : Prop :=
  (∀ v : Word, (∃ e, decodeCmd v = .error e) ↔
      (5 ≤ v.toNat % 16 ∧ v.toNat % 16 ≤ 14) ∨ v.toNat / 16 ≠ 0)
    ∧ ∀ (s : State) (v : Word), ((5 ≤ v.toNat % 16 ∧ v.toNat % 16 ≤ 14) ∨ v.toNat / 16 ≠ 0) →
      (s.phase = .idle →
        exec (.wrCmd v) s = .next { s with flags := { s.flags with illegal := true, done := true } })
      ∧ (s.phase ≠ .idle → exec (.wrCmd v) s = .next { s with flags := { s.flags with overrun := true } })

/-! ## The step -/

/-- A step runs the decoded transaction on the state that has consumed it. -/
def Obligations.StepRunsDecodedTransaction : Prop :=
  ∀ (s : State) (t : Transaction) (rest : List Input), s.inputs = .host t :: rest →
    step s = exec (decodeBus t) { s with inputs := rest }

/-- Whatever instruction the host encodes on the port, a BUS row or a command, the step runs exactly it. -/
def Obligations.StepRunsEncodedInstruction : Prop :=
  ∀ (s : State) (i : Instr) (rest : List Input), s.inputs = .host (encode i).onPort :: rest →
    step s = exec i { s with inputs := rest }

/-- The turns that are no transaction: a turn of the SEQ agent, a step with no input pending, and a reset each consume their
input and do one thing; in IDLE the SEQ agent has no step (R27).  Two clauses are the model's: that the SEQ agent alone goes on
where no input is pending (assumption log 2), and that reset is one step and a turn of the SEQ agent in IDLE consumes its input
and changes nothing (assumption log 10). -/
def Obligations.StepWithoutTransaction : Prop :=
  (∀ (s : State) (rest : List Input), s.inputs = .seq :: rest → step s = .next (seqStep { s with inputs := rest }))
    ∧ (∀ s : State, s.inputs = [] → step s = .next (seqStep s))
    ∧ (∀ (s : State) (rest : List Input), s.inputs = .rst :: rest →
        step s = .next (assertReset { s with inputs := rest }))
    ∧ ∀ s : State, s.phase = .idle → seqStep s = s

/-- Register A of an integration stands at `BASE_ADDR + 4*A`; an access of another size or off a word boundary is refused,
wherever it lies, so also across the edge of the block (R35, R40).  That the size is named where both apply, and that an aligned
word outside the 32 bytes is a fault, are the model's (assumption log 9). -/
def Obligations.IntegrationAccessIsOneWordOrRefused : Prop :=
  Config.baseAddr % 32 = 0
    ∧ (∀ (s : State) (A : Nat) (v : Word) (rest : List Input), A < 8 →
        (s.inputs = .bus ⟨Config.baseAddr + 4 * A, 4, false, v⟩ :: rest →
          step s = exec (decodeBus ⟨BitVec.ofNat 4 A, v⟩) { s with inputs := rest })
        ∧ (s.inputs = .bus ⟨Config.baseAddr + 4 * A, 4, true, v⟩ :: rest →
          step s = exec (decodeBus ⟨BitVec.ofNat 4 (8 + A), v⟩) { s with inputs := rest }))
    ∧ ∀ (s : State) (a : BusAccess) (rest : List Input), s.inputs = .bus a :: rest →
        (a.size ≠ 4 → step s = .refused .subWordAccess)
        ∧ (a.size = 4 → a.addr % 4 ≠ 0 → step s = .refused .misalignedAccess)
        ∧ (a.size = 4 → a.addr % 4 = 0 → a.addr < Config.baseAddr ∨ Config.baseAddr + 32 ≤ a.addr →
            step s = .fault .outsideBlock)

/-- The byte at `BASE_ADDR + 4*A + j` holds bits `[8j+7:8j]` of register A, and no other byte address is the block's
(R34, R38). -/
def Obligations.RegisterBytesAreLittleEndianLanes : Prop :=
  (∀ (s : State) (r : Reg) (j : Nat), j < 4 →
      ∃ b, byteAt s (Config.baseAddr + 4 * r.index.toNat + j) = some b
        ∧ ∀ i < 8, b.getLsbD i = (readReg r s).getLsbD (8 * j + i))
    ∧ ∀ (s : State) (a : Nat), (byteAt s a).isSome = true ↔ Config.baseAddr ≤ a ∧ a < Config.baseAddr + 32

/-! ## Reads and register writes -/

/-- RD returns the register's read value, every reserved bit 0, and changes nothing of the block (R36). -/
def Obligations.ReadReturnsRegisterValue : Prop :=
  ∀ s : State,
    exec (.rd .ctrl) s = .next { s with
      rdata := BitVec.ofNat 32 ((gainBit s.ctrl.gain).toNat + 2 * s.ctrl.cal.toNat + 4 * s.ctrl.ie.toNat) }
    ∧ exec (.rd .cmd) s = .next { s with rdata := 0 }
    ∧ exec (.rd .status) s = .next { s with
      rdata := BitVec.ofNat 32
        ((decide (s.phase ≠ .idle)).toNat + 2 * (decide (s.phase = .wait)).toNat
          + 4 * s.flags.done.toNat + 8 * s.flags.uncal.toNat + 16 * s.flags.overrun.toNat
          + 32 * s.flags.illegal.toNat + 64 * s.flags.aborted.toNat + 128 * s.flags.sat.toNat
          + 256 * (gainBit s.book.pgain).toNat + 512 * s.book.pgainV.toNat
          + 1024 * (gainBit s.book.sgain).toNat + 2048 * s.book.sgainV.toNat) }
    ∧ exec (.rd .offset) s = .next { s with rdata := BitVec.ofInt 32 s.ofs.toInt }
    ∧ exec (.rd .scale) s = .next { s with rdata := BitVec.ofNat 32 (65536 * s.scale.s.toNat + s.scale.k.toNat) }
    ∧ exec (.rd .result) s = .next { s with rdata := s.result }
    ∧ exec (.rd .lastGrams) s = .next { s with rdata := s.lastGrams }
    ∧ exec (.rd .raw) s = .next { s with rdata := BitVec.ofNat 32 s.raw.toNat }

/-- WR CTRL: GAIN and IE are bits 0 and 2, CAL is bit 1 and only while K is non-zero, and `irq` follows the new IE at once;
the snapshot and every other register keep their values (R74). -/
def Obligations.WriteCtrlSetsGainCalIe : Prop :=
  ∀ (s : State) (v : Word),
    decodeBus ⟨0x8#4, v⟩ = .wrCtrl v
    ∧ ∃ t, exec (.wrCtrl v) s = .next t
      ∧ t = { s with ctrl :=
              ⟨if v.toNat % 2 = 1 then .low else .high,
                decide (v.toNat / 2 % 2 = 1 ∧ s.scale.k.toInt ≠ 0),
                decide (v.toNat / 4 % 2 = 1)⟩ }
      ∧ irq t = (s.flags.done && decide (v.toNat / 4 % 2 = 1))

/-- WR OFFSET keeps `v[23:0]`, which reads back sign-extended; nothing else changes (R77, R20). -/
def Obligations.WriteOffsetKeepsLow24Bits : Prop :=
  ∀ (s : State) (v : Word),
    decodeBus ⟨0xB#4, v⟩ = .wrOffset v
    ∧ ∃ t, exec (.wrOffset v) s = .next t
      ∧ t = { s with ofs := BitVec.ofNat 24 (v.toNat % 16777216) }
      ∧ (readReg .offset t).toInt
          = if v.toNat % 16777216 < 8388608 then ((v.toNat % 16777216 : Nat) : Int)
            else ((v.toNat % 16777216 : Nat) : Int) - 16777216

/-- WR SCALE keeps `v[15:0]` as K and `v[20:16]` as S, and clears CAL when the new K is 0; it never sets CAL (R78). -/
def Obligations.WriteScaleClearsCalOnZero : Prop :=
  ∀ (s : State) (v : Word),
    decodeBus ⟨0xC#4, v⟩ = .wrScale v
    ∧ exec (.wrScale v) s = .next { s with
        scale := ⟨BitVec.ofNat 16 (v.toNat % 65536), BitVec.ofNat 5 (v.toNat / 65536 % 32)⟩
        ctrl := { s.ctrl with cal := if v.toNat % 65536 = 0 then false else s.ctrl.cal } }

/-- WR STATUS clears exactly the sticky flags `v[7:2]` names: seen through the STATUS word, every other bit ignores the
write; and clearing DONE lowers `irq`.  A flag cleared and then set again by the completion that follows ends set, the
order the hardware takes at one clock edge (R111, R122). -/
def Obligations.WriteStatusClearsNamedFlags : Prop :=
  ∀ (s : State) (v : Word),
    decodeBus ⟨0xA#4, v⟩ = .wrStatus v
    ∧ ∃ t, exec (.wrStatus v) s = .next t
      ∧ t = { s with flags := t.flags }
      ∧ readReg .status t = readReg .status s &&& ~~~(v &&& 0x000000FC#32)
      ∧ (v.toNat / 4 % 2 = 1 → irq t = false)
      ∧ (s.phase = .finish → (seqStep t).flags.done = true
          ∧ (s.snap.op = .measure → weightSat s.shreg s.snap ≠ weight s.shreg s.snap → (seqStep t).flags.sat = true))

/-- WR RESULT, WR LAST_GRAMS and WR RAW change no state and raise no flag (R112). -/
def Obligations.WritesToReadOnlyRegistersIgnored : Prop :=
  ∀ (s : State) (v : Word),
    decodeBus ⟨0xD#4, v⟩ = .wrResult v ∧ exec (.wrResult v) s = .next s
    ∧ decodeBus ⟨0xE#4, v⟩ = .wrLastGrams v ∧ exec (.wrLastGrams v) s = .next s
    ∧ decodeBus ⟨0xF#4, v⟩ = .wrRaw v ∧ exec (.wrRaw v) s = .next s

/-- Writing CTRL, OFFSET, SCALE or STATUS twice leaves the state of writing it once (R42). -/
def Obligations.RegisterWritesAreIdempotent : Prop :=
  ∀ (s : State) (v : Word), ∀ i ∈ [Instr.wrCtrl v, .wrOffset v, .wrScale v, .wrStatus v],
    ∃ t, exec i s = .next t ∧ exec i t = .next t

/-- A read after a write returns what the write left, after the write rule's legalisation (R44, item 2). -/
def Obligations.ReadAfterWriteReturnsLegalisedValue : Prop :=
  ∀ (s : State) (v : Word),
    (∃ t, exec (.wrCtrl v) s = .next t ∧ exec (.rd .ctrl) t
        = .next { t with rdata := v &&& (if s.scale.k = 0 then 0x5#32 else 0x7#32) })
    ∧ (∃ t, exec (.wrOffset v) s = .next t ∧ exec (.rd .offset) t
        = .next { t with rdata := (v <<< 8).sshiftRight 8 })
    ∧ (∃ t, exec (.wrScale v) s = .next t ∧ exec (.rd .scale) t = .next { t with rdata := v &&& 0x001FFFFF#32 })
    ∧ ∀ i ∈ [Instr.wrResult v, .wrLastGrams v, .wrRaw v], ∀ r,
        ∃ t, exec i s = .next t ∧ exec (.rd r) t = .next { s with rdata := readReg r s }

/-! ## Commands -/

/-- The command decoder behind WR CMD, by phase and word, in the order of its checks (R107). -/
def Obligations.WriteCmdDecoder : Prop :=
  ∀ (s : State) (v : Word),
    (s.phase ≠ .idle → v ≠ 0xF#32 → exec (.wrCmd v) s = .next { s with flags := { s.flags with overrun := true } })
    ∧ (s.phase = .wait → v = 0xF#32 → exec (.wrCmd v) s
        = .next { s with phase := .idle, flags := { s.flags with aborted := true, done := true } })
    ∧ (clocking s.phase = true → v = 0xF#32 → exec (.wrCmd v) s = .next s)
    ∧ (s.phase = .idle → v = 0x0#32 ∨ v = 0xF#32 → exec (.wrCmd v) s
        = .next { s with flags := { s.flags with done := true } })
    ∧ (s.phase = .idle → ∀ op, (v, op) ∈ [(0x1#32, Op.readRaw), (0x2#32, Op.tare), (0x3#32, Op.readCal)] →
        exec (.wrCmd v) s = .next { s with
          phase := .wait, snap := ⟨op, s.ctrl.gain, s.ctrl.cal, s.ofs, s.scale.k, s.scale.s⟩ })
    ∧ (s.phase = .idle → v = 0x4#32 → s.ctrl.cal = true → exec (.wrCmd v) s = .next { s with
          phase := .wait, snap := ⟨.measure, s.ctrl.gain, true, s.ofs, s.scale.k, s.scale.s⟩ })
    ∧ (s.phase = .idle → v = 0x4#32 → s.ctrl.cal = false → exec (.wrCmd v) s = .next { s with
          snap := ⟨.measure, s.ctrl.gain, false, s.ofs, s.scale.k, s.scale.s⟩
          result := 0, flags := { s.flags with uncal := true, done := true } })
    ∧ (s.phase = .idle → 16 ≤ v.toNat ∨ (5 ≤ v.toNat ∧ v.toNat ≤ 14) → exec (.wrCmd v) s
        = .next { s with flags := { s.flags with illegal := true, done := true } })

/-- Writing a command's word to CMD is that command, in every state (R54, R107). -/
def Obligations.CommandWordIsItsCommand : Prop :=
  ∀ (v : Word) (i : Instr), decodeCmd v = .ok i → ∀ s : State, exec (.wrCmd v) s = exec i s

/-- NOP sets DONE and changes no other register; while BUSY it raises OVERRUN (R108). -/
def Obligations.NopOnlySetsDone : Prop :=
  encode .nop = .cmd 0x00000000#32
  ∧ ∀ s : State,
    (s.phase = .idle → exec .nop s = .next { s with flags := { s.flags with done := true } })
    ∧ (s.phase ≠ .idle → exec .nop s = .next { s with flags := { s.flags with overrun := true } })

/-- The issue of READ_RAW, TARE and READ_CAL in IDLE: the snapshot of the live registers, then WAIT; no flag, register or pin
changes, DONE among them. -/
def Obligations.DeviceCommandsIssueFromIdle : Prop :=
  ∀ s : State, s.phase = .idle →
    ∀ c ∈ [(Instr.readRaw, Op.readRaw), (Instr.tare, Op.tare), (Instr.readCal, Op.readCal)],
      exec c.1 s = .next { s with
        phase := .wait, snap := ⟨c.2, s.ctrl.gain, s.ctrl.cal, s.ofs, s.scale.k, s.scale.s⟩ }

/-- MEASURE issued calibrated: the snapshot, then WAIT. -/
def Obligations.CalibratedMeasureIssuesFromIdle : Prop :=
  ∀ s : State, s.phase = .idle → s.ctrl.cal = true →
    exec .measure s = .next { s with
      phase := .wait, snap := ⟨.measure, s.ctrl.gain, true, s.ofs, s.scale.k, s.scale.s⟩ }

/-- MEASURE issued uncalibrated: RESULT = 0, UNCAL and DONE within the issue step, no transaction; LAST_GRAMS, RAW, the gain
bookkeeping and the phase are unchanged (R84). -/
def Obligations.UncalibratedMeasureReturnsZero : Prop :=
  ∀ s : State, s.phase = .idle → s.ctrl.cal = false →
    exec .measure s = .next { s with
      snap := ⟨.measure, s.ctrl.gain, false, s.ofs, s.scale.k, s.scale.s⟩
      result := 0
      flags := { s.flags with uncal := true, done := true } }

/-- ABORT by phase: a no-op command when idle, the end of the command in WAIT with no result, nothing during the pulse train;
and a word with any other bit set is not ABORT (R109). -/
def Obligations.AbortByPhase : Prop :=
  encode .abort = .cmd 0x0000000F#32
  ∧ (∀ s : State,
      (s.phase = .idle → exec .abort s = .next { s with flags := { s.flags with done := true } })
      ∧ (s.phase = .wait → exec .abort s
          = .next { s with phase := .idle, flags := { s.flags with aborted := true, done := true } })
      ∧ (∀ k, s.phase = .rise k ∨ s.phase = .fall k ∨ s.phase = .finish → exec .abort s = .next s))
  ∧ ∀ (s : State) (v : Word), v.toNat % 16 = 15 → v ≠ 0x0000000F#32 →
      (s.phase = .idle → exec (.wrCmd v) s
        = .next { s with flags := { s.flags with illegal := true, done := true } })
      ∧ (s.phase ≠ .idle → exec (.wrCmd v) s = .next { s with flags := { s.flags with overrun := true } })

/-- While BUSY every command word but exactly 0x0000000F, reserved ones among them, is dropped with OVERRUN: the command in
progress, its snapshot and every register are unaffected and DONE is not set (R117). -/
def Obligations.BusyDropsCommandWithOverrun : Prop :=
  ∀ s : State, s.phase ≠ .idle →
    (∀ v : Word, v ≠ 0x0000000F#32 → exec (.wrCmd v) s = .next { s with flags := { s.flags with overrun := true } })
    ∧ ∀ i ∈ [Instr.nop, .readRaw, .tare, .readCal, .measure],
        exec i s = .next { s with flags := { s.flags with overrun := true } }

/-- One CMD write raises at most one of OVERRUN, ILLEGAL, ABORTED and UNCAL, and never SAT (R121). -/
def Obligations.OneCommandWriteRaisesAtMostOneCondition : Prop :=
  ∀ (s : State) (v : Word), ∃ t, exec (.wrCmd v) s = .next t
    ∧ (!s.flags.overrun && t.flags.overrun).toNat + (!s.flags.illegal && t.flags.illegal).toNat
        + (!s.flags.aborted && t.flags.aborted).toNat + (!s.flags.uncal && t.flags.uncal).toNat ≤ 1
    ∧ t.flags.sat = s.flags.sat

/-! ## The sequencer -/

/-- WAIT samples the data line once: 0 enters RISE(0), 1 leaves the phase; only the device's presented level is consumed; and
nothing but a poll, ABORT or reset leaves WAIT (R60).  Where no level is presented the sample is a free draw (R71); that it is
`freeDout` of a counter is the model's representation (assumption log 3). -/
def Obligations.PollStartsTrainOnLowLevel : Prop :=
  (∀ (s : State) (later : List Input), s.phase = .wait → s.inputs = .seq :: later →
    (∀ (b : Bool) (rest : List Bool), s.dev.levels = b :: rest →
      step s = .next { s with
        phase := if b then .wait else .rise 0
        dev := { s.dev with levels := rest }
        inputs := later })
    ∧ (s.dev.levels = [] →
      step s = .next { s with
        phase := if Config.freeDout s.dev.draws then .wait else .rise 0
        dev := { s.dev with draws := s.dev.draws + 1 }
        inputs := later }))
  ∧ ∀ s s' : State, s.phase = .wait → step s = .next s' → s'.phase ≠ .wait →
      ((nextInput s).1 = .seq ∧ s'.phase = .rise 0)
        ∨ (nextInstr s = some (.wrCmd 0x0000000F#32) ∧ s'.phase = .idle)
        ∨ ((nextInput s).1 = .rst ∧ s'.phase = .idle)

/-- RISE(k) raises SCK; FALL(k) samples a data pulse into bit 23 - k, lowers SCK and goes to the next pulse while
`k + 1 < 24 + n_l`, else to FINISH; a gain pulse samples nothing (R62, R63, R65).  That a sample no presented level answers is
`freeDout` of a counter is the model's representation (assumption log 3). -/
def Obligations.ClockEdgesCaptureMsbFirst : Prop :=
  ∀ (s : State) (k : Nat) (later : List Input), s.inputs = .seq :: later →
    (s.phase = .rise k → step s = .next { s with sck := true, phase := .fall k, inputs := later })
    ∧ (s.phase = .fall k → 24 ≤ k → step s = .next { s with
        sck := false
        inputs := later
        phase := if k + 1 < 24 + extraPulses s.snap.gain then .rise (k + 1) else .finish })
    ∧ (s.phase = .fall k → k < 24 →
        ∃ (b : Bool) (d : Device) (r : Raw24),
          ((∃ rest, s.dev.levels = b :: rest ∧ d = { s.dev with levels := rest })
            ∨ (s.dev.levels = [] ∧ b = Config.freeDout s.dev.draws ∧ d = { s.dev with draws := s.dev.draws + 1 }))
          ∧ step s = .next { s with
              sck := false
              phase := if k + 1 < 24 + extraPulses s.snap.gain then .rise (k + 1) else .finish
              shreg := r
              dev := d
              inputs := later }
          ∧ ∀ i < 24, r.getLsbD i = if i = 23 - k then b else s.shreg.getLsbD i)

/-- The completion, in one step, by command; MEASURE's weight is the floor of `acc / 2^s_l`, saturated, with SAT where it was
narrowed; the device now holds the gain of the pulses (R72); and before this step no register or flag is written (R69). -/
def Obligations.CompletionWritesAllResultsAtOnce : Prop :=
  (∀ (s : State) (later : List Input), s.phase = .finish → s.inputs = .seq :: later →
    ∃ t, step s = .next t
      ∧ t = { s with
          inputs := later, phase := .idle, raw := s.shreg
          book := ⟨s.snap.gain, true, s.book.pgain, s.book.pgainV⟩
          dev := { s.dev with gain := .selected s.snap.gain }
          flags := t.flags, ofs := t.ofs, result := t.result, lastGrams := t.lastGrams }
      ∧ (s.snap.op = .readRaw → t.result = BitVec.ofInt 32 s.shreg.toInt ∧ t.ofs = s.ofs
          ∧ t.lastGrams = s.lastGrams ∧ t.flags = { s.flags with done := true })
      ∧ (s.snap.op = .tare → t.ofs = s.shreg ∧ t.result = s.result
          ∧ t.lastGrams = s.lastGrams ∧ t.flags = { s.flags with done := true })
      ∧ (s.snap.op = .readCal → t.result = BitVec.ofInt 32 (s.shreg.toInt - s.snap.ofs.toInt) ∧ t.ofs = s.ofs
          ∧ t.lastGrams = s.lastGrams ∧ t.flags = { s.flags with done := true })
      ∧ (s.snap.op = .measure → ∀ w : Int,
          w * 2 ^ s.snap.s.toNat ≤ (s.shreg.toInt - s.snap.ofs.toInt) * s.snap.k.toInt
              + (if s.snap.s.toNat = 0 then 0 else 2 ^ (s.snap.s.toNat - 1)) →
          (s.shreg.toInt - s.snap.ofs.toInt) * s.snap.k.toInt
              + (if s.snap.s.toNat = 0 then 0 else 2 ^ (s.snap.s.toNat - 1)) < (w + 1) * 2 ^ s.snap.s.toNat →
          t.result = BitVec.ofInt 32 (max (-2 ^ 31) (min w (2 ^ 31 - 1))) ∧ t.lastGrams = t.result ∧ t.ofs = s.ofs
            ∧ t.flags = { s.flags with
                done := true, sat := s.flags.sat || decide (w < -2 ^ 31 ∨ 2 ^ 31 - 1 < w) }))
  ∧ ∀ s : State, s.phase ≠ .finish →
      (seqStep s).raw = s.raw ∧ (seqStep s).result = s.result ∧ (seqStep s).lastGrams = s.lastGrams
        ∧ (seqStep s).ofs = s.ofs ∧ (seqStep s).flags = s.flags ∧ (seqStep s).book = s.book

/-- A SEQ step changes only the pins, `shreg`, `phase` and the registers a completion names: never CTRL or SCALE, OFFSET only by
TARE, RESULT by the other commands, LAST_GRAMS and SAT only by MEASURE, and no flag but DONE and SAT (R70). -/
def Obligations.SequencerStepFrame : Prop :=
  ∀ s : State,
    (seqStep s).ctrl = s.ctrl ∧ (seqStep s).scale = s.scale ∧ (seqStep s).snap = s.snap
    ∧ (seqStep s).rdata = s.rdata ∧ (seqStep s).inputs = s.inputs
    ∧ (s.phase ≠ .finish → seqStep s = { s with
        phase := (seqStep s).phase, shreg := (seqStep s).shreg, sck := (seqStep s).sck, dev := (seqStep s).dev })
    ∧ (s.phase = .finish → seqStep s = { s with
        phase := (seqStep s).phase, raw := (seqStep s).raw, book := (seqStep s).book, dev := (seqStep s).dev
        ofs := (seqStep s).ofs, result := (seqStep s).result, lastGrams := (seqStep s).lastGrams
        flags := { s.flags with done := (seqStep s).flags.done, sat := (seqStep s).flags.sat } })
    ∧ ((seqStep s).ofs ≠ s.ofs → s.phase = .finish ∧ s.snap.op = .tare)
    ∧ ((seqStep s).result ≠ s.result → s.phase = .finish ∧ s.snap.op ≠ .tare)
    ∧ ((seqStep s).lastGrams ≠ s.lastGrams → s.phase = .finish ∧ s.snap.op = .measure)
    ∧ ((seqStep s).flags.sat ≠ s.flags.sat → s.phase = .finish ∧ s.snap.op = .measure)

/-- If every sample in WAIT returns 1 the block stays in WAIT: a hang, with no flag raised; ABORT ends it (R61). -/
def Obligations.DeviceNeverReadyHangsInWait : Prop :=
  ∀ (n : Nat) (s : State) (rest : List Bool) (later : List Input), s.phase = .wait →
    s.inputs = List.replicate n .seq ++ later → s.dev.levels = List.replicate n true ++ rest →
    run n s = .next { s with dev := { s.dev with levels := rest }, inputs := later }
    ∧ exec .abort { s with dev := { s.dev with levels := rest } } = .next { s with
        dev := { s.dev with levels := rest }
        phase := .idle, flags := { s.flags with aborted := true, done := true } }

/-- A pulse train has exactly 25 rising edges for HIGH and 27 for LOW, and samples the data line exactly 24 times; gain
pulses are timed as data pulses are (R65). -/
def Obligations.PulseTrainEdgeCount : Prop :=
  (∀ (s : State) (n : Nat), s.phase = .rise 0 → s.sck = false →
    (n = match s.snap.gain with | .high => 25 | .low => 27) →
      risingEdges (2 * n) s = n ∧ samples (2 * n) s = 24 ∧ (seqSteps (2 * n) s).phase = .finish)
  ∧ ∀ k j : Nat, stepClocks (.rise k) = stepClocks (.rise j) ∧ stepClocks (.fall k) = stepClocks (.fall j)
      ∧ stepClocks (.rise k) = stepClocks (.fall k)

/-- The pulse train holds for `50 * T_HOLD_CYCLES` block clocks for HIGH and `54 * T_HOLD_CYCLES` for LOW, which is at least
50 µs and 54 µs (R145). -/
def Obligations.PulseTrainHoldTime : Prop :=
  ∀ (s : State) (n : Nat), s.phase = .rise 0 → (n = match s.snap.gain with | .high => 25 | .low => 27) →
    seqClocks (2 * n) s = 2 * n * Config.tHoldCycles
      ∧ 2 * n * Config.fClk ≤ Config.megahertz * seqClocks (2 * n) s

/-! ## The pipeline -/

/-- The sample is the three bytes in the order read, most significant first, sign-extended by the top bit of the first; it is
stored as 32 bits without loss (R68). -/
def Obligations.SampleIsSignExtendedBytes : Prop :=
  ∀ x : Raw24,
    sampleOf x = 65536 * ((x.extractLsb' 16 8).toNat : Int) + 256 * ((x.extractLsb' 8 8).toNat : Int)
        + ((x.extractLsb' 0 8).toNat : Int) - (if 128 ≤ (x.extractLsb' 16 8).toNat then 16777216 else 0)
    ∧ (sampleOf x < 0 ↔ (x.extractLsb' 16 8).getLsbD 7 = true)
    ∧ -8388608 ≤ sampleOf x ∧ sampleOf x ≤ 8388607
    ∧ (bits32 (sampleOf x)).toInt = sampleOf x

/-- READ_CAL's subtraction never wraps and never saturates: RESULT is the exact difference (R82, R90). -/
def Obligations.DifferenceIsExact : Prop :=
  ∀ (x : Raw24) (p : Snapshot),
    (bits32 (difference x p)).toInt = x.toInt - p.ofs.toInt
    ∧ -16777215 ≤ difference x p ∧ difference x p ≤ 16777215

/-- The accumulator fits 41 signed bits for every sample and snapshot (R85). -/
def Obligations.AccumulatorFits41Bits : Prop :=
  ∀ (x : Raw24) (p : Snapshot),
    |difference x p * p.k.toInt| ≤ 549755781120
    ∧ 0 ≤ roundTerm p.s ∧ roundTerm p.s ≤ 2 ^ 30
    ∧ -549755781120 ≤ accumulator x p ∧ accumulator x p ≤ 549755781120 + 2 ^ 30
    ∧ -2 ^ 40 ≤ accumulator x p ∧ accumulator x p < 2 ^ 40

/-- Rounding: the weight is the nearest integer to the exact quotient, ties toward plus infinity; with S = 0 it is the product
itself (R87). -/
def Obligations.WeightRoundsHalfUp : Prop :=
  ∀ (x : Raw24) (p : Snapshot),
    (0 < p.s.toNat → ∀ w : Int, weight x p = w ↔
      (2 * w - 1) * 2 ^ p.s.toNat ≤ 2 * (difference x p * p.k.toInt)
        ∧ 2 * (difference x p * p.k.toInt) < (2 * w + 1) * 2 ^ p.s.toNat)
    ∧ (p.s.toNat = 0 → weight x p = difference x p * p.k.toInt)
    ∧ p.s.toNat ≤ 31

/-- Saturation: the result is the weight clamped to 32 bits; for S of 8 or more nothing is narrowed, and for every S of 7 or
less some sample and snapshot with a non-zero K is; a completing MEASURE raises SAT where the weight is out of range and leaves
it unchanged elsewhere (R88). -/
def Obligations.SaturationOnlyBelowShiftEight : Prop :=
  (∀ (x : Raw24) (p : Snapshot),
      (2147483647 < weight x p → bits32 (weightSat x p) = 0x7FFFFFFF#32)
      ∧ (weight x p < -2147483648 → bits32 (weightSat x p) = 0x80000000#32)
      ∧ (-2147483648 ≤ weight x p → weight x p ≤ 2147483647 → (bits32 (weightSat x p)).toInt = weight x p)
      ∧ (8 ≤ p.s.toNat → |weight x p| ≤ 2147483647))
    ∧ (∀ n < 8, ∃ (x : Raw24) (p : Snapshot), p.s.toNat = n ∧ p.k ≠ 0 ∧ 2147483647 < weight x p)
    ∧ ∀ s : State, s.phase = .finish → s.snap.op = .measure →
        (seqStep s).flags.sat = (s.flags.sat
          || decide (weight s.shreg s.snap < -2147483648 ∨ 2147483647 < weight s.shreg s.snap))

/-! ## Whole transactions -/

/-- A whole transaction: from WAIT, with the device not ready for any number of polls and then presenting X, the turns of the
SEQ agent that it takes end in IDLE with RAW = X, the gain bookkeeping advanced, the device's gain selected, DONE set, the result its command
names computed from X and the snapshot, and every other register unchanged. -/
def Obligations.TransactionDeliversPresentedSample : Prop :=
  ∀ (s : State) (polls : Nat) (x : Raw24) (rest : List Bool) (later : List Input),
    s.phase = .wait → s.inputs = List.replicate (transactionSteps polls s.snap.gain) .seq ++ later →
    s.dev.levels = presents polls x ++ rest →
    run (transactionSteps polls s.snap.gain) s = .next { s with
      inputs := later, phase := .idle, sck := false, shreg := x, raw := x
      book := ⟨s.snap.gain, true, s.book.pgain, s.book.pgainV⟩
      dev := ⟨.selected s.snap.gain, rest, s.dev.draws⟩
      ofs := if s.snap.op = .tare then x else s.ofs
      result :=
        match s.snap.op with
        | .readRaw => BitVec.ofInt 32 x.toInt
        | .tare => s.result
        | .readCal => BitVec.ofInt 32 (x.toInt - s.snap.ofs.toInt)
        | .measure => BitVec.ofInt 32 (weightSat x s.snap)
      lastGrams := if s.snap.op = .measure then BitVec.ofInt 32 (weightSat x s.snap) else s.lastGrams
      flags := { s.flags with
        done := true
        sat := s.flags.sat || decide (s.snap.op = .measure ∧ weightSat x s.snap ≠ weight x s.snap) } }

/-- TARE followed by READ_CAL of the same presented sample leaves RESULT = 0, whatever the sample, the gain and the waits
(R81). -/
def Obligations.TareThenReadCalIsZero : Prop :=
  ∀ (s : State) (p q : Nat) (x : Raw24) (rest : List Bool) (later : List Input),
    s.phase = .idle →
    s.inputs = .host (encode .tare).onPort :: (List.replicate (transactionSteps p s.ctrl.gain) .seq
      ++ .host (encode .readCal).onPort :: (List.replicate (transactionSteps q s.ctrl.gain) .seq ++ later)) →
    s.dev.levels = presents p x ++ (presents q x ++ rest) →
    ∃ t, run (1 + transactionSteps p s.ctrl.gain + (1 + transactionSteps q s.ctrl.gain)) s = .next t
      ∧ t.result = 0 ∧ t.ofs = x ∧ t.raw = x ∧ t.phase = .idle ∧ t.dev.levels = rest ∧ t.inputs = later

/-- The host cannot reach a transaction: with any host reads and register writes interleaved anywhere among the SEQ turns, the
sequencer's view (phase, captured bits, snapshot, SCK, results, gain bookkeeping, device) is the one of the SEQ turns
alone (R44, R66, R140).  The two runs start from one device, so where no level is presented they draw the same free levels: the
model's choice (assumption log 3). -/
def Obligations.HostWritesInvisibleToTransaction : Prop :=
  ∀ (l : List Input) (s : State), s.inputs = l → l.all Input.quiet = true →
    ∃ t u, run l.length s = .next t
      ∧ run (l.filter Input.isSeq).length { s with inputs := l.filter Input.isSeq } = .next u
      ∧ seqView t = seqView u

/-- Liveness (R146): from WAIT, with any finite list of SEQ turns, host reads and register writes pending, and a device that
becomes ready after some polls and then presents X, the transaction completes and its results are those of X and of the
snapshot.  The premise on the levels is DEV_READY_EVENTUALLY; SEQ_FAIR is the model's choice that the SEQ agent goes on when
no input is pending (assumption log 2). -/
def Obligations.TransactionCompletesUnderAnyInterleaving : Prop :=
  ∀ (s : State) (polls : Nat) (x : Raw24) (rest : List Bool),
    s.phase = .wait → s.inputs.all Input.quiet = true → s.dev.levels = presents polls x ++ rest →
    ∃ t, run (s.inputs.length + transactionSteps polls s.snap.gain) s = .next t
      ∧ t.phase = .idle ∧ t.inputs = [] ∧ t.sck = false ∧ t.raw = x ∧ t.dev = ⟨.selected s.snap.gain, rest, s.dev.draws⟩
      ∧ t.book = ⟨s.snap.gain, true, s.book.pgain, s.book.pgainV⟩
      ∧ (s.snap.op = .readRaw → t.result = BitVec.ofInt 32 x.toInt)
      ∧ (s.snap.op = .readCal → t.result = BitVec.ofInt 32 (x.toInt - s.snap.ofs.toInt))
      ∧ (s.snap.op = .measure → t.result = BitVec.ofInt 32 (weightSat x s.snap) ∧ t.lastGrams = t.result)
      ∧ (s.snap.op = .tare → t.result = s.result)
      ∧ (s.snap.op ≠ .measure → t.lastGrams = s.lastGrams)

/-- From RISE(0) to the completion nothing the host does alters the transaction: ABORT is ignored, any other CMD write is
OVERRUN, writes to CTRL, OFFSET and SCALE reach the registers and not the snapshot; and only the completion or reset ends
it (R66). -/
def Obligations.PulseTrainCannotBeInterrupted : Prop :=
  ∀ s : State, clocking s.phase = true →
    exec (.wrCmd 0x0000000F#32) s = .next s
    ∧ (∀ v : Word, v ≠ 0x0000000F#32 → exec (.wrCmd v) s = .next { s with flags := { s.flags with overrun := true } })
    ∧ (∀ v : Word, ∃ t, exec (.wrCtrl v) s = .next t ∧ t.ctrl.gain = gainField v ∧ seqView t = seqView s)
    ∧ (∀ v : Word, ∃ t, exec (.wrOffset v) s = .next t ∧ t.ofs = ofsField v ∧ seqView t = seqView s)
    ∧ (∀ v : Word, ∃ t, exec (.wrScale v) s = .next t ∧ t.scale = ⟨kField v, sField v⟩ ∧ seqView t = seqView s)
    ∧ (∀ (t : Transaction) (u : State), exec (decodeBus t) s = .next u → seqView u = seqView s)
    ∧ ∀ s', step s = .next s' → s'.phase = .idle →
        (s.phase = .finish ∧ (nextInput s).1 = .seq) ∨ (nextInput s).1 = .rst

/-- The snapshot is unread while no command is in progress, and every issue writes all of it: two idle states that differ in
the snapshot alone step alike, and to the same state where a command begins (R29). -/
def Obligations.SnapshotUnreadWhenIdle : Prop :=
  ∀ (s t : State) (p : Snapshot), s.phase = .idle → step s = .next t →
    ∃ u, step { s with snap := p } = .next u ∧ { u with snap := t.snap } = t ∧ (t.phase ≠ .idle → u = t)

/-! ## Invariants and whole-machine rules -/

/-- Every step keeps the block's invariant.  Its clause on a gain no source gives is about the model's own counter of draws
(assumption log 6). -/
def Obligations.StepKeepsInvariant : Prop := ∀ s s' : State, Inv s → step s = .next s' → Inv s'

/-- The reset state meets the invariant.  That its device's gain is draw 0 of a counter at 1 is the model's choice (assumption
log 6). -/
def Obligations.ResetMeetsInvariant : Prop := Inv State.reset

/-- CAL is 1 only while K is non-zero: the reset state meets it and every step keeps it (R17). -/
def Obligations.CalibratedImpliesNonzeroCoefficient : Prop :=
  (State.reset.ctrl.cal = true → State.reset.scale.k.toInt ≠ 0)
    ∧ ∀ s s' : State, (s.ctrl.cal = true → s.scale.k.toInt ≠ 0) → step s = .next s' →
        (s'.ctrl.cal = true → s'.scale.k.toInt ≠ 0)

/-- LAST_GRAMS changes only at a calibrated MEASURE's completion, to the value of RESULT (R89), or at reset (R132). -/
def Obligations.LastGramsOnlyByMeasure : Prop :=
  ∀ s s' : State, step s = .next s' → (nextInput s).1 ≠ .rst → s'.lastGrams ≠ s.lastGrams →
    (nextInput s).1 = .seq ∧ s.phase = .finish ∧ s.snap.op = .measure ∧ s'.lastGrams = s'.result

/-- What sets each sticky flag (R32, R116, R119): nothing else does. -/
def Obligations.FlagsAreSetOnlyByTheirCause : Prop :=
  ∀ s s' : State, step s = .next s' →
    (s.flags.done = false → s'.flags.done = true →
      ((nextInput s).1 = .seq ∧ s.phase = .finish)
        ∨ ∃ v, nextInstr s = some (.wrCmd v)
          ∧ ((s.phase = .wait ∧ v = 0x0000000F#32)
            ∨ (s.phase = .idle ∧ (v = 0x00000000#32 ∨ v = 0x0000000F#32 ∨ (∃ e, decodeCmd v = .error e)
                ∨ (v = 0x00000004#32 ∧ s.ctrl.cal = false)))))
    ∧ (s.flags.uncal = false → s'.flags.uncal = true →
      nextInstr s = some (.wrCmd 0x00000004#32) ∧ s.phase = .idle ∧ s.ctrl.cal = false ∧ s'.result = 0)
    ∧ (s.flags.overrun = false → s'.flags.overrun = true →
      ∃ v, nextInstr s = some (.wrCmd v) ∧ v ≠ 0x0000000F#32 ∧ s.phase ≠ .idle)
    ∧ (s.flags.illegal = false → s'.flags.illegal = true →
      ∃ v e, nextInstr s = some (.wrCmd v) ∧ decodeCmd v = .error e ∧ s.phase = .idle)
    ∧ (s.flags.aborted = false → s'.flags.aborted = true →
      nextInstr s = some (.wrCmd 0x0000000F#32) ∧ s.phase = .wait)
    ∧ (s.flags.sat = false → s'.flags.sat = true →
      (nextInput s).1 = .seq ∧ s.phase = .finish ∧ s.snap.op = .measure
        ∧ (s'.result = 0x7FFFFFFF#32 ∨ s'.result = 0x80000000#32))

/-- What clears each flag (R32): a WR STATUS that names it, or reset; CAL falls only by WR CTRL with bit 1 = 0, by WR SCALE with
K = 0 or by reset, and rises only by WR CTRL with bit 1 = 1 while K is non-zero; and PGAIN, PGAIN_V, SGAIN and SGAIN_V change
only at the completion of a transaction or at reset. -/
def Obligations.FlagsAreClearedOnlyByTheirCause : Prop :=
  ∀ s s' : State, (s.ctrl.cal = true → s.scale.k ≠ 0) → step s = .next s' → (nextInput s).1 ≠ .rst →
    (∀ b : Nat, 2 ≤ b → b ≤ 7 →
      (readReg .status s).getLsbD b = true → (readReg .status s').getLsbD b = false →
      ∃ v, nextInstr s = some (.wrStatus v) ∧ v.getLsbD b = true)
    ∧ (s.ctrl.cal = true → s'.ctrl.cal = false →
      (∃ v, nextInstr s = some (.wrCtrl v) ∧ v.getLsbD 1 = false)
        ∨ ∃ v, nextInstr s = some (.wrScale v) ∧ v.toNat % 65536 = 0)
    ∧ (s.ctrl.cal = false → s'.ctrl.cal = true →
      ∃ v, nextInstr s = some (.wrCtrl v) ∧ v.getLsbD 1 = true ∧ s.scale.k ≠ 0)
    ∧ ∀ b : Nat, 8 ≤ b → b ≤ 11 → (readReg .status s').getLsbD b ≠ (readReg .status s).getLsbD b →
      (nextInput s).1 = .seq ∧ s.phase = .finish

/-- `irq` is a level, DONE and IE as they read; every condition but OVERRUN coincides with DONE; and it is cleared by clearing
DONE or IE (R120). -/
def Obligations.InterruptIsDoneAndEnabled : Prop :=
  (∀ s : State, irq s = true ↔ (readReg .status s).getLsbD 2 = true ∧ (readReg .ctrl s).getLsbD 2 = true)
    ∧ (∀ s s' : State, step s = .next s' →
        ((s.flags.uncal = false ∧ s'.flags.uncal = true) ∨ (s.flags.illegal = false ∧ s'.flags.illegal = true)
          ∨ (s.flags.aborted = false ∧ s'.flags.aborted = true) ∨ (s.flags.sat = false ∧ s'.flags.sat = true)) →
        s'.flags.done = true ∧ irq s' = s'.ctrl.ie)
    ∧ ∀ (s : State) (v : Word),
        (v.getLsbD 2 = true → ∃ t, exec (.wrStatus v) s = .next t ∧ irq t = false)
        ∧ (v.getLsbD 2 = false → ∃ t, exec (.wrCtrl v) s = .next t ∧ irq t = false)

/-- Reset, whatever the phase: every register reads 0, the phase is IDLE, `shreg` is 0, SCK and `irq` are low; and the state
right after reset is so too; the device keeps what it presents and, where no pulse train was cut short, all it holds (R132).
The snapshot is left unspecified. -/
def Obligations.ResetClearsTheBlock : Prop :=
  (∀ (s : State) (rest : List Input), s.inputs = .rst :: rest →
    ∃ t, step s = .next t ∧ (∀ r, readReg r t = 0)
      ∧ t.ctrl = ⟨.high, false, false⟩ ∧ t.flags = ⟨false, false, false, false, false, false⟩
      ∧ t.book = ⟨.high, false, .high, false⟩ ∧ t.ofs = 0 ∧ t.scale = ⟨0, 0⟩ ∧ t.result = 0 ∧ t.lastGrams = 0
      ∧ t.raw = 0 ∧ t.phase = .idle ∧ t.shreg = 0 ∧ t.sck = false ∧ irq t = false ∧ t.inputs = rest
      ∧ t.dev.levels = s.dev.levels ∧ (s.phase = .idle ∨ s.phase = .wait → t.dev = s.dev))
    ∧ (∀ r, readReg r State.reset = 0) ∧ State.reset.phase = .idle ∧ State.reset.shreg = 0
    ∧ State.reset.sck = false ∧ irq State.reset = false

/-- Reset does not reset the device: all it holds is kept where no pulse train was cut short; where one was, the gain its next
sample is converted under is a free draw, fresh by the invariant; and the block's bookkeeping is invalid either way (R133, R134).
That the unknown gain is `freeDevGain` of a counter is the model's representation (assumption log 6). -/
def Obligations.ResetDoesNotReachTheDevice : Prop :=
  ∀ (s : State) (rest : List Input), s.inputs = .rst :: rest →
    ∃ t, step s = .next t ∧ t.dev.levels = s.dev.levels
      ∧ (s.phase = .idle ∨ s.phase = .wait → t.dev = s.dev)
      ∧ (s.phase ≠ .idle → s.phase ≠ .wait →
          conversionGain t.dev = Config.freeDevGain s.dev.draws ∧ t.dev.draws = s.dev.draws + 1
            ∧ (Inv s → t.dev.gain ≠ s.dev.gain))
      ∧ t.book.pgainV = false ∧ t.book.sgainV = false

/-- The gain pipeline: the pulses of a transaction select the gain of the NEXT sample, so where SGAIN is valid it is the gain
the device held before this transaction's pulses, and PGAIN is the one it holds after them (R72, R75, R136). -/
def Obligations.GainTakesEffectOneSampleLater : Prop :=
  ∀ (s : State) (later : List Input), Inv s → s.phase = .finish → s.inputs = .seq :: later →
    ∃ t, step s = .next t
      ∧ (t.book.sgainV = true → s.dev.gain = .selected t.book.sgain)
      ∧ t.book.pgainV = true ∧ t.book.pgain = s.snap.gain ∧ t.dev.gain = .selected t.book.pgain
      ∧ (s.book.pgainV = true → t.book.sgainV = true)

/-! ## The host program -/

/-- Step 1 and step 2 of `calibrate()`: whatever the block, the host's first fifteen lines send these messages and begin these
waits in this order, each number before its wait (R96, R97).  What the channel then delivers of them is left free (assumption
log 12). -/
def Obligations.CountdownMessagesInOrder : Prop :=
  ∀ (f : Nat) (s : State),
    ((System.run (calibrate f) (List.replicate 15 .host) ⟨.start, s⟩).host.log).reverse =
      [.sent ⟨"Calibrating", by decide⟩, .sent ⟨"Remove all weight.", by decide⟩,
        .sent ⟨"Setting zero point in:", by decide⟩,
        .sent ⟨"4", by decide⟩, .waited 1000, .sent ⟨"3", by decide⟩, .waited 1000, .sent ⟨"2", by decide⟩, .waited 1000,
        .sent ⟨"1", by decide⟩, .waited 1000, .sent ⟨"0", by decide⟩, .waited 1000]

/-- Through `calibrate()`, under any interleaving of host and block, CAL is 0 from the end of step 1 to step 7's last write,
and becomes 1 nowhere else (R96, R104). -/
def Obligations.CalibrationSetsCalOnlyAtTheEnd : Prop :=
  (∀ (f : Nat) (sched : List Turn) (s : State),
      3 ≤ (System.run (calibrate f) sched ⟨.start, s⟩).host.pc →
      (System.run (calibrate f) sched ⟨.start, s⟩).host.pc ≤ 40 →
      (System.run (calibrate f) sched ⟨.start, s⟩).block.ctrl.cal = false)
    ∧ ∀ (f : Nat) (σ : System) (who : Turn), σ.block.ctrl.cal = false → (σ.turn (calibrate f) who).block.ctrl.cal = true →
        3 ≤ σ.host.pc → who = .host ∧ σ.host.pc = 40 ∧ σ.block.scale.k ≠ 0

/-- The weight-detection loop exits on `abs(diff) > 100000` and on nothing else; else it waits 200 ms and reads again
(R100). -/
def Obligations.DetectionLoopExitsAboveThreshold : Prop :=
  ∀ (f : Nat) (σ : System), σ.host.pc = 27 →
    ((100000 < σ.host.x.toInt ∨ σ.host.x.toInt < -100000) →
      σ.turn (calibrate f) .host = { σ with host := { σ.host with pc := 30 } })
    ∧ (-100000 ≤ σ.host.x.toInt → σ.host.x.toInt ≤ 100000 →
      System.run (calibrate f) [.host, .host, .host] σ
        = { σ with host := { σ.host with pc := 22, log := .waited 200 :: σ.host.log } })

/-- `host_ks` picks the largest shift whose coefficient fits, and fails only where none does (R103).  Its arithmetic is exact, and
that `sf = 0` is a failure is the model's choice (assumption log 11). -/
def Obligations.HostConversionPicksLargestShift : Prop :=
  ∀ (sf : ℚ) (f : Nat),
    (∀ k s, hostKs sf f = some (k, s) →
      s ≤ 31 ∧ k = roundHalfAway (2 ^ (s + f) / sf) ∧ -32768 ≤ k ∧ k ≤ 32767 ∧ k ≠ 0
        ∧ ∀ s', s < s' → s' ≤ 31 → coeffFits (roundHalfAway (2 ^ (s' + f) / sf)) = false)
    ∧ (hostKs sf f = none → ∀ s' ≤ 31, coeffFits (roundHalfAway (2 ^ (s' + f) / sf)) = false)

/-- The accuracy of the fixed-point form: with the coefficient `host_ks` picks, the weight is within
`|diff| * 2^-(S+1) + 1/2` of `diff * 2^F / sf` where it is not saturated (R103).  The arithmetic is exact (assumption
log 11). -/
def Obligations.HostConversionErrorBound : Prop :=
  ∀ (sf : ℚ) (f : Nat) (k : Int) (s : Nat) (x : Raw24) (p : Snapshot), hostKs sf f = some (k, s) →
    p.k = BitVec.ofInt 16 k → p.s = BitVec.ofNat 5 s →
    |(weight x p : ℚ) - (difference x p : ℚ) * 2 ^ f / sf| ≤ |(difference x p : ℚ)| / 2 ^ (s + 1) + 1 / 2
end

