-- ==== Sys2Proof/Laws/State.lean ====
section
/-! SUPPORT. One lemma per field per update of the state, so that no proof unfolds a record update. -/

namespace Sys2Proof.Laws

open Sys2Proof.Machine

section
variable (s : State)

/-! `raise` -/

@[simp] theorem raise_ctrl (f : Flag) : (raise f s).ctrl = s.ctrl := rfl
@[simp] theorem raise_flags (f : Flag) : (raise f s).flags = s.flags.set f := rfl
@[simp] theorem raise_book (f : Flag) : (raise f s).book = s.book := rfl
@[simp] theorem raise_ofs (f : Flag) : (raise f s).ofs = s.ofs := rfl
@[simp] theorem raise_scale (f : Flag) : (raise f s).scale = s.scale := rfl
@[simp] theorem raise_result (f : Flag) : (raise f s).result = s.result := rfl
@[simp] theorem raise_lastGrams (f : Flag) : (raise f s).lastGrams = s.lastGrams := rfl
@[simp] theorem raise_raw (f : Flag) : (raise f s).raw = s.raw := rfl
@[simp] theorem raise_phase (f : Flag) : (raise f s).phase = s.phase := rfl
@[simp] theorem raise_shreg (f : Flag) : (raise f s).shreg = s.shreg := rfl
@[simp] theorem raise_snap (f : Flag) : (raise f s).snap = s.snap := rfl
@[simp] theorem raise_sck (f : Flag) : (raise f s).sck = s.sck := rfl
@[simp] theorem raise_rdata (f : Flag) : (raise f s).rdata = s.rdata := rfl
@[simp] theorem raise_dev (f : Flag) : (raise f s).dev = s.dev := rfl
@[simp] theorem raise_inputs (f : Flag) : (raise f s).inputs = s.inputs := rfl

/-! `enter` -/

@[simp] theorem enter_ctrl (p : Phase) : (enter p s).ctrl = s.ctrl := rfl
@[simp] theorem enter_flags (p : Phase) : (enter p s).flags = s.flags := rfl
@[simp] theorem enter_book (p : Phase) : (enter p s).book = s.book := rfl
@[simp] theorem enter_ofs (p : Phase) : (enter p s).ofs = s.ofs := rfl
@[simp] theorem enter_scale (p : Phase) : (enter p s).scale = s.scale := rfl
@[simp] theorem enter_result (p : Phase) : (enter p s).result = s.result := rfl
@[simp] theorem enter_lastGrams (p : Phase) : (enter p s).lastGrams = s.lastGrams := rfl
@[simp] theorem enter_raw (p : Phase) : (enter p s).raw = s.raw := rfl
@[simp] theorem enter_phase (p : Phase) : (enter p s).phase = p := rfl
@[simp] theorem enter_shreg (p : Phase) : (enter p s).shreg = s.shreg := rfl
@[simp] theorem enter_snap (p : Phase) : (enter p s).snap = s.snap := rfl
@[simp] theorem enter_sck (p : Phase) : (enter p s).sck = s.sck := rfl
@[simp] theorem enter_rdata (p : Phase) : (enter p s).rdata = s.rdata := rfl
@[simp] theorem enter_dev (p : Phase) : (enter p s).dev = s.dev := rfl
@[simp] theorem enter_inputs (p : Phase) : (enter p s).inputs = s.inputs := rfl

/-! `driveSck` -/

@[simp] theorem driveSck_ctrl (b : Bool) : (driveSck b s).ctrl = s.ctrl := rfl
@[simp] theorem driveSck_flags (b : Bool) : (driveSck b s).flags = s.flags := rfl
@[simp] theorem driveSck_book (b : Bool) : (driveSck b s).book = s.book := rfl
@[simp] theorem driveSck_ofs (b : Bool) : (driveSck b s).ofs = s.ofs := rfl
@[simp] theorem driveSck_scale (b : Bool) : (driveSck b s).scale = s.scale := rfl
@[simp] theorem driveSck_result (b : Bool) : (driveSck b s).result = s.result := rfl
@[simp] theorem driveSck_lastGrams (b : Bool) : (driveSck b s).lastGrams = s.lastGrams := rfl
@[simp] theorem driveSck_raw (b : Bool) : (driveSck b s).raw = s.raw := rfl
@[simp] theorem driveSck_phase (b : Bool) : (driveSck b s).phase = s.phase := rfl
@[simp] theorem driveSck_shreg (b : Bool) : (driveSck b s).shreg = s.shreg := rfl
@[simp] theorem driveSck_snap (b : Bool) : (driveSck b s).snap = s.snap := rfl
@[simp] theorem driveSck_sck (b : Bool) : (driveSck b s).sck = b := rfl
@[simp] theorem driveSck_rdata (b : Bool) : (driveSck b s).rdata = s.rdata := rfl
@[simp] theorem driveSck_dev (b : Bool) : (driveSck b s).dev = s.dev := rfl
@[simp] theorem driveSck_inputs (b : Bool) : (driveSck b s).inputs = s.inputs := rfl

/-! `latchBit` -/

@[simp] theorem latchBit_ctrl (i : Nat) (b : Bool) : (latchBit i b s).ctrl = s.ctrl := rfl
@[simp] theorem latchBit_flags (i : Nat) (b : Bool) : (latchBit i b s).flags = s.flags := rfl
@[simp] theorem latchBit_book (i : Nat) (b : Bool) : (latchBit i b s).book = s.book := rfl
@[simp] theorem latchBit_ofs (i : Nat) (b : Bool) : (latchBit i b s).ofs = s.ofs := rfl
@[simp] theorem latchBit_scale (i : Nat) (b : Bool) : (latchBit i b s).scale = s.scale := rfl
@[simp] theorem latchBit_result (i : Nat) (b : Bool) : (latchBit i b s).result = s.result := rfl
@[simp] theorem latchBit_lastGrams (i : Nat) (b : Bool) : (latchBit i b s).lastGrams = s.lastGrams := rfl
@[simp] theorem latchBit_raw (i : Nat) (b : Bool) : (latchBit i b s).raw = s.raw := rfl
@[simp] theorem latchBit_phase (i : Nat) (b : Bool) : (latchBit i b s).phase = s.phase := rfl
@[simp] theorem latchBit_shreg (i : Nat) (b : Bool) : (latchBit i b s).shreg = setBit s.shreg i b := rfl
@[simp] theorem latchBit_snap (i : Nat) (b : Bool) : (latchBit i b s).snap = s.snap := rfl
@[simp] theorem latchBit_sck (i : Nat) (b : Bool) : (latchBit i b s).sck = s.sck := rfl
@[simp] theorem latchBit_rdata (i : Nat) (b : Bool) : (latchBit i b s).rdata = s.rdata := rfl
@[simp] theorem latchBit_dev (i : Nat) (b : Bool) : (latchBit i b s).dev = s.dev := rfl
@[simp] theorem latchBit_inputs (i : Nat) (b : Bool) : (latchBit i b s).inputs = s.inputs := rfl

/-! `takeSnapshot` -/

@[simp] theorem takeSnapshot_ctrl (op : Op) : (takeSnapshot op s).ctrl = s.ctrl := rfl
@[simp] theorem takeSnapshot_flags (op : Op) : (takeSnapshot op s).flags = s.flags := rfl
@[simp] theorem takeSnapshot_book (op : Op) : (takeSnapshot op s).book = s.book := rfl
@[simp] theorem takeSnapshot_ofs (op : Op) : (takeSnapshot op s).ofs = s.ofs := rfl
@[simp] theorem takeSnapshot_scale (op : Op) : (takeSnapshot op s).scale = s.scale := rfl
@[simp] theorem takeSnapshot_result (op : Op) : (takeSnapshot op s).result = s.result := rfl
@[simp] theorem takeSnapshot_lastGrams (op : Op) : (takeSnapshot op s).lastGrams = s.lastGrams := rfl
@[simp] theorem takeSnapshot_raw (op : Op) : (takeSnapshot op s).raw = s.raw := rfl
@[simp] theorem takeSnapshot_phase (op : Op) : (takeSnapshot op s).phase = s.phase := rfl
@[simp] theorem takeSnapshot_shreg (op : Op) : (takeSnapshot op s).shreg = s.shreg := rfl
@[simp] theorem takeSnapshot_snap (op : Op) : (takeSnapshot op s).snap = ⟨op, s.ctrl.gain, s.ctrl.cal, s.ofs, s.scale.k, s.scale.s⟩ := rfl
@[simp] theorem takeSnapshot_sck (op : Op) : (takeSnapshot op s).sck = s.sck := rfl
@[simp] theorem takeSnapshot_rdata (op : Op) : (takeSnapshot op s).rdata = s.rdata := rfl
@[simp] theorem takeSnapshot_dev (op : Op) : (takeSnapshot op s).dev = s.dev := rfl
@[simp] theorem takeSnapshot_inputs (op : Op) : (takeSnapshot op s).inputs = s.inputs := rfl

/-! `beginTransaction` -/

@[simp] theorem beginTransaction_ctrl (op : Op) : (beginTransaction op s).ctrl = s.ctrl := rfl
@[simp] theorem beginTransaction_flags (op : Op) : (beginTransaction op s).flags = s.flags := rfl
@[simp] theorem beginTransaction_book (op : Op) : (beginTransaction op s).book = s.book := rfl
@[simp] theorem beginTransaction_ofs (op : Op) : (beginTransaction op s).ofs = s.ofs := rfl
@[simp] theorem beginTransaction_scale (op : Op) : (beginTransaction op s).scale = s.scale := rfl
@[simp] theorem beginTransaction_result (op : Op) : (beginTransaction op s).result = s.result := rfl
@[simp] theorem beginTransaction_lastGrams (op : Op) : (beginTransaction op s).lastGrams = s.lastGrams := rfl
@[simp] theorem beginTransaction_raw (op : Op) : (beginTransaction op s).raw = s.raw := rfl
@[simp] theorem beginTransaction_phase (op : Op) : (beginTransaction op s).phase = .wait := rfl
@[simp] theorem beginTransaction_shreg (op : Op) : (beginTransaction op s).shreg = s.shreg := rfl
@[simp] theorem beginTransaction_snap (op : Op) : (beginTransaction op s).snap = ⟨op, s.ctrl.gain, s.ctrl.cal, s.ofs, s.scale.k, s.scale.s⟩ := rfl
@[simp] theorem beginTransaction_sck (op : Op) : (beginTransaction op s).sck = s.sck := rfl
@[simp] theorem beginTransaction_rdata (op : Op) : (beginTransaction op s).rdata = s.rdata := rfl
@[simp] theorem beginTransaction_dev (op : Op) : (beginTransaction op s).dev = s.dev := rfl
@[simp] theorem beginTransaction_inputs (op : Op) : (beginTransaction op s).inputs = s.inputs := rfl

/-! `recordTransaction` -/

@[simp] theorem recordTransaction_ctrl : (recordTransaction s).ctrl = s.ctrl := rfl
@[simp] theorem recordTransaction_flags : (recordTransaction s).flags = s.flags := rfl
@[simp] theorem recordTransaction_book : (recordTransaction s).book = ⟨s.snap.gain, true, s.book.pgain, s.book.pgainV⟩ := rfl
@[simp] theorem recordTransaction_ofs : (recordTransaction s).ofs = s.ofs := rfl
@[simp] theorem recordTransaction_scale : (recordTransaction s).scale = s.scale := rfl
@[simp] theorem recordTransaction_result : (recordTransaction s).result = s.result := rfl
@[simp] theorem recordTransaction_lastGrams : (recordTransaction s).lastGrams = s.lastGrams := rfl
@[simp] theorem recordTransaction_raw : (recordTransaction s).raw = s.shreg := rfl
@[simp] theorem recordTransaction_phase : (recordTransaction s).phase = s.phase := rfl
@[simp] theorem recordTransaction_shreg : (recordTransaction s).shreg = s.shreg := rfl
@[simp] theorem recordTransaction_snap : (recordTransaction s).snap = s.snap := rfl
@[simp] theorem recordTransaction_sck : (recordTransaction s).sck = s.sck := rfl
@[simp] theorem recordTransaction_rdata : (recordTransaction s).rdata = s.rdata := rfl
@[simp] theorem recordTransaction_dev : (recordTransaction s).dev = { s.dev with gain := .selected s.snap.gain } := rfl
@[simp] theorem recordTransaction_inputs : (recordTransaction s).inputs = s.inputs := rfl

/-! `assertReset` -/

@[simp] theorem assertReset_ctrl : (assertReset s).ctrl = ⟨.high, false, false⟩ := rfl
@[simp] theorem assertReset_flags : (assertReset s).flags = ⟨false, false, false, false, false, false⟩ := rfl
@[simp] theorem assertReset_book : (assertReset s).book = ⟨.high, false, .high, false⟩ := rfl
@[simp] theorem assertReset_ofs : (assertReset s).ofs = 0 := rfl
@[simp] theorem assertReset_scale : (assertReset s).scale = ⟨0, 0⟩ := rfl
@[simp] theorem assertReset_result : (assertReset s).result = 0 := rfl
@[simp] theorem assertReset_lastGrams : (assertReset s).lastGrams = 0 := rfl
@[simp] theorem assertReset_raw : (assertReset s).raw = 0 := rfl
@[simp] theorem assertReset_phase : (assertReset s).phase = .idle := rfl
@[simp] theorem assertReset_shreg : (assertReset s).shreg = 0 := rfl
@[simp] theorem assertReset_snap : (assertReset s).snap = State.reset.snap := rfl
@[simp] theorem assertReset_sck : (assertReset s).sck = false := rfl
@[simp] theorem assertReset_rdata : (assertReset s).rdata = s.rdata := rfl
@[simp] theorem assertReset_dev : (assertReset s).dev = deviceAfterReset s.phase s.dev := rfl
@[simp] theorem assertReset_inputs : (assertReset s).inputs = s.inputs := rfl

/-! The gain the device holds -/

@[simp] theorem conversionGain_high (l : List Bool) (n : Nat) : conversionGain ⟨.selected .high, l, n⟩ = .high := rfl
@[simp] theorem conversionGain_low (l : List Bool) (n : Nat) : conversionGain ⟨.selected .low, l, n⟩ = .low := rfl
@[simp] theorem conversionGain_unknown (k : Nat) (l : List Bool) (n : Nat) :
    conversionGain ⟨.unknown k, l, n⟩ = Config.freeDevGain k := rfl

/-! `Sticky.set` and `Sticky.clear` -/

@[simp] theorem set_self_done (x : Sticky) : (x.set .done).done = true := rfl
@[simp] theorem set_self_uncal (x : Sticky) : (x.set .uncal).uncal = true := rfl
@[simp] theorem set_self_overrun (x : Sticky) : (x.set .overrun).overrun = true := rfl
@[simp] theorem set_self_illegal (x : Sticky) : (x.set .illegal).illegal = true := rfl
@[simp] theorem set_self_aborted (x : Sticky) : (x.set .aborted).aborted = true := rfl
@[simp] theorem set_self_sat (x : Sticky) : (x.set .sat).sat = true := rfl

/-- A flag that is not the one set keeps its value. -/
theorem set_other (f : Flag) (x : Sticky) :
    (f ≠ .done → (x.set f).done = x.done) ∧ (f ≠ .uncal → (x.set f).uncal = x.uncal)
      ∧ (f ≠ .overrun → (x.set f).overrun = x.overrun) ∧ (f ≠ .illegal → (x.set f).illegal = x.illegal)
      ∧ (f ≠ .aborted → (x.set f).aborted = x.aborted) ∧ (f ≠ .sat → (x.set f).sat = x.sat) := by
  cases f <;> simp [Sticky.set]

/-- Setting a flag never clears one. -/
theorem set_monotone (f : Flag) (x : Sticky) :
    (x.done = true → (x.set f).done = true) ∧ (x.uncal = true → (x.set f).uncal = true)
      ∧ (x.overrun = true → (x.set f).overrun = true) ∧ (x.illegal = true → (x.set f).illegal = true)
      ∧ (x.aborted = true → (x.set f).aborted = true) ∧ (x.sat = true → (x.set f).sat = true) := by
  cases f <;> simp +contextual [Sticky.set]

end

end Sys2Proof.Laws
end

