-- ==== Sys2Proof/Laws/Ops.lean ====
section
/-! SUPPORT. What each shared operation can do, said once. -/

namespace Sys2Proof.Laws

open Sys2Proof Sys2Proof.Machine

/-! The phase -/

theorem phase_cases (s : State) :
    s.phase = .idle ∨ s.phase = .wait ∨ (∃ k, s.phase = .rise k) ∨ (∃ k, s.phase = .fall k) ∨ s.phase = .finish := by
  cases s.phase <;> simp

theorem busy_iff (s : State) : busy s = true ↔ s.phase ≠ .idle := by
  unfold busy; cases s.phase <;> simp

theorem busy_eq_false_iff (s : State) : busy s = false ↔ s.phase = .idle := by
  unfold busy; cases s.phase <;> simp

theorem waiting_iff (s : State) : waiting s = true ↔ s.phase = .wait := by
  unfold waiting; cases s.phase <;> simp

theorem clocking_iff (p : Phase) : clocking p = true ↔ p = .finish ∨ ∃ k, p = .rise k ∨ p = .fall k := by
  cases p <;> simp [clocking]

@[simp] theorem totalPulses_high : totalPulses .high = 25 := rfl
@[simp] theorem totalPulses_low : totalPulses .low = 27 := rfl

theorem totalPulses_bounds (g : Gain) : 25 ≤ totalPulses g ∧ totalPulses g ≤ 27 := by
  cases g <;> simp

/-! The data line -/

/-- A sample consumes the next presented level, or is a free draw; nothing but the device changes. -/
theorem sampleDout_spec (s : State) :
    ∃ d : Device, (sampleDout s).2 = { s with dev := d } ∧ d.gain = s.dev.gain
      ∧ ((∃ rest, s.dev.levels = (sampleDout s).1 :: rest ∧ d.levels = rest ∧ d.draws = s.dev.draws)
        ∨ (s.dev.levels = [] ∧ (sampleDout s).1 = Config.freeDout s.dev.draws
          ∧ d.levels = [] ∧ d.draws = s.dev.draws + 1)) := by
  unfold sampleDout
  split
  · next b rest h => exact ⟨_, rfl, rfl, .inl ⟨rest, h, rfl, rfl⟩⟩
  · next h => exact ⟨_, rfl, rfl, .inr ⟨h, rfl, h, rfl⟩⟩

theorem sampleDout_cons {s : State} {b : Bool} {rest : List Bool} (h : s.dev.levels = b :: rest) :
    sampleDout s = (b, { s with dev := { s.dev with levels := rest } }) := by
  unfold sampleDout; rw [h]

/-- The bit written is the bit read back, and every other bit is kept. -/
theorem setBit_getLsbD (r : Raw24) (i j : Nat) (b : Bool) (hi : i < 24) :
    (setBit r i b).getLsbD j = if j = i then b else r.getLsbD j := by
  by_cases hj : j < 24
  · cases b <;> by_cases hji : j = i <;> simp [setBit, hj, hji, hi] <;> omega
  · have : j ≠ i := by omega
    simp [this, BitVec.getLsbD_of_ge _ _ (Nat.not_lt.mp hj)]

/-! The SEQ agent, by phase -/

theorem seqStep_idle {s : State} (h : s.phase = .idle) : seqStep s = s := by simp [seqStep, h]
theorem seqStep_wait {s : State} (h : s.phase = .wait) : seqStep s = pollReady s := by simp [seqStep, h]
theorem seqStep_rise {s : State} {k : Nat} (h : s.phase = .rise k) : seqStep s = raiseClock k s := by simp [seqStep, h]
theorem seqStep_fall {s : State} {k : Nat} (h : s.phase = .fall k) : seqStep s = lowerClock k s := by simp [seqStep, h]
theorem seqStep_finish {s : State} (h : s.phase = .finish) : seqStep s = complete s := by simp [seqStep, h]

/-- A sample keeps the device's gain and takes no draw back. -/
theorem sampleDout_dev {s : State} {d : Device} (h : (sampleDout s).2 = { s with dev := d }) :
    d.gain = s.dev.gain ∧ s.dev.draws ≤ d.draws := by
  obtain ⟨e, he, hg, h'⟩ := sampleDout_spec s
  obtain rfl : d = e := by simpa using congrArg State.dev (h.symm.trans he)
  refine ⟨hg, ?_⟩
  rcases h' with ⟨_, _, _, h'⟩ | ⟨_, _, _, h'⟩ <;> omega

/-- A poll changes the device's levels and, where the sample is 0, the phase. -/
theorem pollReady_spec (s : State) :
    ∃ d : Device, (d.gain = s.dev.gain ∧ s.dev.draws ≤ d.draws)
      ∧ pollReady s = { s with dev := d, phase := if (sampleDout s).1 then s.phase else .rise 0 } := by
  obtain ⟨d, hd, -⟩ := sampleDout_spec s
  refine ⟨d, sampleDout_dev hd, ?_⟩
  unfold pollReady
  rcases hs : sampleDout s with ⟨b, t⟩
  rw [hs] at hd
  cases b <;> simp_all [enter]

/-- Lowering the clock changes the pins, the phase and, at a data pulse, one bit of the shift register. -/
theorem lowerClock_spec (k : Nat) (s : State) :
    ∃ d : Device, (d.gain = s.dev.gain ∧ s.dev.draws ≤ d.draws)
      ∧ lowerClock k s = { s with
          dev := d
          sck := false
          phase := afterPulse k s.snap.gain
          shreg := if k < 24 then setBit s.shreg (23 - k) (sampleDout s).1 else s.shreg } := by
  obtain ⟨d, hd, -⟩ := sampleDout_spec s
  by_cases hk : k < 24
  · refine ⟨d, sampleDout_dev hd, ?_⟩
    rcases hs : sampleDout s with ⟨b, t⟩
    rw [hs] at hd
    subst hd
    simp [lowerClock, captureBit, Config.dataClocks, hk, hs, enter, driveSck, latchBit]
  · exact ⟨s.dev, ⟨rfl, le_rfl⟩, by simp [lowerClock, Config.dataClocks, hk, enter, driveSck]⟩

/-- A completion writes RAW, the gain bookkeeping, the device's gain, and one of the results by command. -/
theorem complete_spec (s : State) :
    ∃ (o : Raw24) (r l : Word) (f : Sticky),
      complete s = { recordTransaction s with ofs := o, result := r, lastGrams := l, flags := f, phase := .idle }
        ∧ (s.snap.op ≠ .tare → o = s.ofs) ∧ (s.snap.op ≠ .measure → l = s.lastGrams ∧ f = s.flags.set .done) := by
  refine ⟨(complete s).ofs, (complete s).result, (complete s).lastGrams, (complete s).flags, ?_⟩
  unfold complete deliver deliverWeight
  rcases h : s.snap.op with _ | _ | _ | _ <;> simp [recordTransaction, raise, enter, h]

/-- The state after a completion, by the snapshot's command. -/
theorem complete_eq (s : State) :
    complete s = { s with
      phase := .idle
      raw := s.shreg
      book := ⟨s.snap.gain, true, s.book.pgain, s.book.pgainV⟩
      dev := { s.dev with gain := .selected s.snap.gain }
      ofs := if s.snap.op = .tare then s.shreg else s.ofs
      result :=
        match s.snap.op with
        | .readRaw => bits32 (sampleOf s.shreg)
        | .tare => s.result
        | .readCal => bits32 (difference s.shreg s.snap)
        | .measure => bits32 (weightSat s.shreg s.snap)
      lastGrams := if s.snap.op = .measure then bits32 (weightSat s.shreg s.snap) else s.lastGrams
      flags := { s.flags with
        done := true
        sat := s.flags.sat || decide (s.snap.op = .measure ∧ weightSat s.shreg s.snap ≠ weight s.shreg s.snap) } } := by
  rcases ho : s.snap.op <;> simp [complete, deliver, ho, recordTransaction, raise, enter, Sticky.set, deliverWeight]
  by_cases hw : weightSat s.shreg s.snap = weight s.shreg s.snap <;> simp [hw]

/-- The SEQ agent writes neither CTRL, SCALE, the snapshot nor `rdata`. -/
theorem seqStep_frame (s : State) :
    (seqStep s).ctrl = s.ctrl ∧ (seqStep s).scale = s.scale ∧ (seqStep s).snap = s.snap
      ∧ (seqStep s).rdata = s.rdata := by
  obtain hp | hp | ⟨k, hp⟩ | ⟨k, hp⟩ | hp := phase_cases s
  · rw [seqStep_idle hp]; exact ⟨rfl, rfl, rfl, rfl⟩
  · rw [seqStep_wait hp]; obtain ⟨d, -, he⟩ := pollReady_spec s; rw [he]; exact ⟨rfl, rfl, rfl, rfl⟩
  · rw [seqStep_rise hp]; exact ⟨rfl, rfl, rfl, rfl⟩
  · rw [seqStep_fall hp]; obtain ⟨d, -, he⟩ := lowerClock_spec k s; rw [he]; exact ⟨rfl, rfl, rfl, rfl⟩
  · rw [seqStep_finish hp, complete_eq]; exact ⟨rfl, rfl, rfl, rfl⟩

/-! Command issue -/

theorem unlessBusy_idle {s : State} (act : State → State) (h : s.phase = .idle) : unlessBusy act s = act s := by
  simp [unlessBusy, (busy_eq_false_iff s).mpr h]

theorem unlessBusy_busy {s : State} (act : State → State) (h : s.phase ≠ .idle) :
    unlessBusy act s = raise .overrun s := by
  simp [unlessBusy, (busy_iff s).mpr h]

/-- A command's word is the only word that selects it. -/
theorem decodeCmd_word (v : Word) :
    (v = 0#32 ∧ decodeCmd v = .ok .nop) ∨ (v = 1#32 ∧ decodeCmd v = .ok .readRaw)
      ∨ (v = 2#32 ∧ decodeCmd v = .ok .tare) ∨ (v = 3#32 ∧ decodeCmd v = .ok .readCal)
      ∨ (v = 4#32 ∧ decodeCmd v = .ok .measure) ∨ (v = 15#32 ∧ decodeCmd v = .ok .abort)
      ∨ (16 ≤ v.toNat ∧ decodeCmd v = .error .reservedBits)
      ∨ (5 ≤ v.toNat ∧ v.toNat ≤ 14 ∧ decodeCmd v = .error .reservedOpcode) := by
  have hv := v.isLt
  by_cases hr : 16 ≤ v.toNat
  · have : rsvOf v ≠ 0 := by
      intro h
      have := congrArg BitVec.toNat h
      simp [rsvOf, Nat.shiftRight_eq_div_pow] at this
      omega
    have hd : decodeCmd v = .error .reservedBits := if_pos this
    exact .inr (.inr (.inr (.inr (.inr (.inr (.inl ⟨hr, hd⟩))))))
  · obtain ⟨n, hn, rfl⟩ : ∃ n < 16, v = BitVec.ofNat 32 n :=
      ⟨v.toNat, by omega, by simp⟩
    clear hv hr
    revert hn
    revert n
    decide

/-! The descriptor -/

@[simp] theorem descriptor_we (b : Bool) (r : Reg) (v : Word) : Transaction.we ⟨descriptor b r, v⟩ = b := by
  cases b <;> cases r <;> simp only [Transaction.we] <;> decide

@[simp] theorem descriptor_reg (b : Bool) (r : Reg) (v : Word) : Transaction.reg ⟨descriptor b r, v⟩ = r := by
  cases b <;> cases r <;> simp only [Transaction.reg] <;> decide

@[simp] theorem command_we (v : Word) : Transaction.we ⟨0x9#4, v⟩ = true := descriptor_we true .cmd v

@[simp] theorem command_reg (v : Word) : Transaction.reg ⟨0x9#4, v⟩ = .cmd := descriptor_reg true .cmd v

/-- A transaction is a read or a write of one of the eight registers; no transaction decodes to a command. -/
theorem decodeBus_cases (t : Transaction) :
    (∃ r, decodeBus t = .rd r) ∨ (∃ v, decodeBus t = .wrCtrl v) ∨ (∃ v, decodeBus t = .wrCmd v)
      ∨ (∃ v, decodeBus t = .wrStatus v) ∨ (∃ v, decodeBus t = .wrOffset v) ∨ (∃ v, decodeBus t = .wrScale v)
      ∨ (∃ v, decodeBus t = .wrResult v) ∨ (∃ v, decodeBus t = .wrLastGrams v) ∨ ∃ v, decodeBus t = .wrRaw v := by
  unfold decodeBus writeTo
  split
  · split <;> simp
  · simp

/-- Everything a CMD write can do, in the order of the decoder's checks. -/
theorem execWrCmd_spec (v : Word) (s : State) :
    (s.phase = .idle ∧ (v = 0#32 ∨ v = 15#32) ∧ execWrCmd v s = .next (raise .done s))
      ∨ (s.phase = .idle ∧ (∃ op, (v, op) ∈ [(1#32, Op.readRaw), (2#32, Op.tare), (3#32, Op.readCal)]
          ∧ execWrCmd v s = .next (beginTransaction op s)))
      ∨ (s.phase = .idle ∧ v = 4#32 ∧ s.ctrl.cal = true ∧ execWrCmd v s = .next (beginTransaction .measure s))
      ∨ (s.phase = .idle ∧ v = 4#32 ∧ s.ctrl.cal = false
          ∧ execWrCmd v s = .next (raise .uncal (raise .done { takeSnapshot .measure s with result := 0 })))
      ∨ (s.phase = .idle ∧ (∃ e, decodeCmd v = .error e) ∧ execWrCmd v s = .next (reservedWord s))
      ∨ (s.phase = .wait ∧ v = 15#32 ∧ execWrCmd v s = .next (enter .idle (raise .aborted (raise .done s))))
      ∨ (clocking s.phase = true ∧ v = 15#32 ∧ execWrCmd v s = .next s)
      ∨ (s.phase ≠ .idle ∧ v ≠ 15#32 ∧ execWrCmd v s = .next (raise .overrun s)) := by
  by_cases hi : s.phase = .idle
  · have hb : busy s = false := (busy_eq_false_iff s).mpr hi
    have he : execWrCmd v s = .next (issueWord v s) := by simp [execWrCmd, hb]
    obtain ⟨h, hd⟩ | ⟨h, hd⟩ | ⟨h, hd⟩ | ⟨h, hd⟩ | ⟨h, hd⟩ | ⟨h, hd⟩ | ⟨-, hd⟩ | ⟨-, -, hd⟩ := decodeCmd_word v
    · exact .inl ⟨hi, .inl h, by rw [he, issueWord, hd]⟩
    · exact .inr (.inl ⟨hi, .readRaw, by simp [h], by rw [he, issueWord, hd]⟩)
    · exact .inr (.inl ⟨hi, .tare, by simp [h], by rw [he, issueWord, hd]⟩)
    · exact .inr (.inl ⟨hi, .readCal, by simp [h], by rw [he, issueWord, hd]⟩)
    · have hm : execWrCmd v s = .next (issueMeasure s) := by rw [he, issueWord, hd]
      cases hc : s.ctrl.cal
      · exact .inr (.inr (.inr (.inl ⟨hi, h, rfl, by rw [hm]; simp [issueMeasure, takeSnapshot, hc]⟩)))
      · exact .inr (.inr (.inl ⟨hi, h, rfl, by rw [hm]; simp [issueMeasure, takeSnapshot, beginTransaction, hc]⟩))
    · exact .inl ⟨hi, .inr h, by rw [he, issueWord, hd]⟩
    · exact .inr (.inr (.inr (.inr (.inl ⟨hi, ⟨_, hd⟩, by rw [he, issueWord, hd]⟩))))
    · exact .inr (.inr (.inr (.inr (.inl ⟨hi, ⟨_, hd⟩, by rw [he, issueWord, hd]⟩))))
  · have hb : busy s = true := (busy_iff s).mpr hi
    by_cases hv : v = 15#32
    · have he : execWrCmd v s = .next (abortBusy s) := by simp [execWrCmd, hb, hv]
      cases hp : s.phase
      · exact absurd hp hi
      · exact .inr (.inr (.inr (.inr (.inr (.inl ⟨rfl, hv, by rw [he, abortBusy, hp]⟩)))))
      all_goals exact .inr (.inr (.inr (.inr (.inr (.inr (.inl ⟨rfl, hv, by rw [he, abortBusy, hp]⟩))))))
    · exact .inr (.inr (.inr (.inr (.inr (.inr (.inr ⟨hi, hv, by simp [execWrCmd, hb, hv]⟩))))))

/-! STATUS as it reads -/

/-- The twelve used bits of the STATUS word, bit 0 first. -/
def statusBits (s : State) : List Bool :=
  [busy s, waiting s, s.flags.done, s.flags.uncal, s.flags.overrun, s.flags.illegal, s.flags.aborted, s.flags.sat,
    gainBit s.book.pgain, s.book.pgainV, gainBit s.book.sgain, s.book.sgainV]

/-- STATUS bit `i` is the `i`-th of its used bits, and 0 above them. -/
theorem readStatus_getLsbD (s : State) (i : Nat) : (readReg .status s).getLsbD i = (statusBits s).getD i false := by
  by_cases hi : i < 32
  · rw [readReg, statusWord, statusBits]
    interval_cases i <;> simp only [BitVec.getLsbD_append] <;> simp
  · rw [BitVec.getLsbD_of_ge _ _ (by omega)]
    simp [statusBits, List.getD, show 12 ≤ i by omega]

/-! Inputs and dispatch -/

theorem nextInput_nil {s : State} (h : s.inputs = []) : nextInput s = (.seq, s) := by simp [nextInput, h]

theorem nextInput_cons {s : State} {x : Input} {rest : List Input} (h : s.inputs = x :: rest) :
    nextInput s = (x, { s with inputs := rest }) := by simp [nextInput, h]

theorem step_nil {s : State} (h : s.inputs = []) : step s = .next (seqStep s) := by
  simp [step, nextInput_nil h, act]

theorem step_cons {s : State} {x : Input} {rest : List Input} (h : s.inputs = x :: rest) :
    step s = act x { s with inputs := rest } := by simp [step, nextInput_cons h]

/-- Everything a step can do: one turn of the SEQ agent, a reset, or the decoded instruction of a transaction. -/
theorem step_cases {s s' : State} (h : step s = .next s') :
    ((nextInput s).1 = .seq ∧ s' = seqStep (nextInput s).2)
      ∨ ((nextInput s).1 = .rst ∧ s' = assertReset (nextInput s).2)
      ∨ (∃ t, ((nextInput s).1 = .host t ∨ ∃ a, (nextInput s).1 = .bus a ∧ busTransaction a = .next t)
          ∧ exec (decodeBus t) (nextInput s).2 = .next s') := by
  unfold step act at h
  split at h
  · next t ht => exact .inr (.inr ⟨t, .inl ht, h⟩)
  · next a ha =>
    split at h
    · next t ht => exact .inr (.inr ⟨t, .inr ⟨a, ha, ht⟩, h⟩)
    · cases h
    · cases h
  · next hs => exact .inl ⟨hs, by injection h with h; exact h.symm⟩
  · next hs => exact .inr (.inl ⟨hs, by injection h with h; exact h.symm⟩)

/-- Taking an input changes nothing else. -/
theorem nextInput_rest (s : State) : ∃ l, (nextInput s).2 = { s with inputs := l } := by
  unfold nextInput
  split
  · next h => exact ⟨[], by rw [← h]⟩
  · next x rest h => exact ⟨rest, rfl⟩

/-- An access the port can carry is one transaction, and any other stops by name. -/
theorem busTransaction_spec (a : BusAccess) :
    (a.wf = true ∧ busTransaction a
        = .next ⟨descriptor a.we (regAt (BitVec.ofNat 3 ((a.addr - Config.baseAddr) / 4))), a.wdata⟩)
      ∨ (a.wholeWord = false ∧ busTransaction a = .refused .subWordAccess)
      ∨ (a.wholeWord = true ∧ a.aligned = false ∧ busTransaction a = .refused .misalignedAccess)
      ∨ (a.wholeWord = true ∧ a.aligned = true ∧ a.inBlock = false ∧ busTransaction a = .fault .outsideBlock) := by
  unfold busTransaction BusAccess.wf
  cases a.inBlock <;> cases a.wholeWord <;> cases a.aligned <;> simp

end Sys2Proof.Laws
end

