-- ==== Sys2Proof/Laws/PerInstr.lean ====
section
/-! SUPPORT. Statements about every instruction, one lemma per constructor. -/

/-! WriteBit: descriptor bit 3 on the port tells a write from a read and nothing else does (R51); every command is a
write. -/

namespace Sys2Proof.Laws.WriteBit

open Sys2Proof

/-- The port's WE is 0 exactly for a read. -/
def Statement (i : Instr) : Prop := (encode i).onPort.we = false ↔ ∃ r, i = .rd r

theorem rd (r : Reg) : Statement (.rd r) := by simp [Statement, encode, readCode, Code.onPort]
theorem wrCtrl (v : Word) : Statement (.wrCtrl v) := by simp [Statement, encode, writeCode, Code.onPort]
theorem wrCmd (v : Word) : Statement (.wrCmd v) := by simp [Statement, encode, writeCode, Code.onPort]
theorem wrStatus (v : Word) : Statement (.wrStatus v) := by simp [Statement, encode, writeCode, Code.onPort]
theorem wrOffset (v : Word) : Statement (.wrOffset v) := by simp [Statement, encode, writeCode, Code.onPort]
theorem wrScale (v : Word) : Statement (.wrScale v) := by simp [Statement, encode, writeCode, Code.onPort]
theorem wrResult (v : Word) : Statement (.wrResult v) := by simp [Statement, encode, writeCode, Code.onPort]
theorem wrLastGrams (v : Word) : Statement (.wrLastGrams v) := by simp [Statement, encode, writeCode, Code.onPort]
theorem wrRaw (v : Word) : Statement (.wrRaw v) := by simp [Statement, encode, writeCode, Code.onPort]
theorem nop : Statement .nop := by simp [Statement, encode, Code.onPort]
theorem readRaw : Statement .readRaw := by simp [Statement, encode, Code.onPort]
theorem tare : Statement .tare := by simp [Statement, encode, Code.onPort]
theorem readCal : Statement .readCal := by simp [Statement, encode, Code.onPort]
theorem measure : Statement .measure := by simp [Statement, encode, Code.onPort]
theorem abort : Statement .abort := by simp [Statement, encode, Code.onPort]

end Sys2Proof.Laws.WriteBit
end

