-- ==== Sys2Proof/Laws/Run.lean ====
section
/-! SUPPORT. Runs of several steps, and turns of the SEQ agent. -/

namespace Sys2Proof.Laws

open Sys2Proof Sys2Proof.Machine

@[simp] theorem run_zero (s : State) : run 0 s = .next s := rfl

/-- A run whose first step answers a next state goes on from it. -/
theorem run_succ {s t : State} (h : step s = .next t) (n : Nat) : run (n + 1) s = run n t := by
  have h' : Sys2Proof.core.step s = .next t := h
  simp only [run, Host.Core.run, h']
  rfl

/-- A run whose first step faults stops there. -/
theorem run_succ_fault {s : State} {f : Fault} (h : step s = .fault f) (n : Nat) : run (n + 1) s = .fault f := by
  have h' : Sys2Proof.core.step s = .fault f := h
  simp only [run, Host.Core.run, h']
  rfl

/-- A run whose first step is refused stops there. -/
theorem run_succ_refused {s : State} {r : Refusal} (h : step s = .refused r) (n : Nat) :
    run (n + 1) s = .refused r := by
  have h' : Sys2Proof.core.step s = .refused r := h
  simp only [run, Host.Core.run, h']
  rfl

/-- A run of `m + n` steps is one of `m` and then one of `n`. -/
theorem run_add {s t : State} {m : Nat} (h : run m s = .next t) (n : Nat) : run (m + n) s = run n t := by
  induction m generalizing s with
  | zero =>
    have : s = t := by simpa using h
    rw [this, Nat.zero_add]
  | succ m ih =>
    cases hs : step s with
    | next u =>
      rw [run_succ hs] at h
      rw [Nat.add_right_comm, run_succ hs, ih h]
    | fault f => rw [run_succ_fault hs] at h; cases h
    | refused r => rw [run_succ_refused hs] at h; cases h

/-- What every step keeps, every run keeps. -/
theorem run_keeps {P : State → Prop} (hstep : ∀ s t, P s → step s = .next t → P t) {n : Nat} {s t : State} (hs : P s)
    (h : run n s = .next t) : P t := by
  induction n generalizing s with
  | zero =>
    have : s = t := by simpa using h
    exact this ▸ hs
  | succ n ih =>
    cases hu : step s with
    | next u => rw [run_succ hu] at h; exact ih (hstep s u hs hu) h
    | fault f => rw [run_succ_fault hu] at h; cases h
    | refused r => rw [run_succ_refused hu] at h; cases h

/-- The SEQ agent consumes no input and writes no register of the host's. -/
theorem seqStep_inputs (s : State) : (seqStep s).inputs = s.inputs := by
  obtain hp | hp | ⟨k, hp⟩ | ⟨k, hp⟩ | hp := phase_cases s
  · rw [seqStep_idle hp]
  · rw [seqStep_wait hp]; obtain ⟨d, -, he⟩ := pollReady_spec s; rw [he]
  · rw [seqStep_rise hp]; rfl
  · rw [seqStep_fall hp]; obtain ⟨d, -, he⟩ := lowerClock_spec k s; rw [he]
  · rw [seqStep_finish hp]; obtain ⟨o, r, l, f, he, -⟩ := complete_spec s; rw [he]; rfl

/-- The SEQ agent does not look at the inputs to come. -/
theorem seqStep_withInputs (s : State) (l : List Input) :
    seqStep { s with inputs := l } = { seqStep s with inputs := l } := by
  obtain hp | hp | ⟨k, hp⟩ | ⟨k, hp⟩ | hp := phase_cases s
  · rw [seqStep_idle hp, seqStep_idle (s := { s with inputs := l }) hp]
  · rw [seqStep_wait hp, seqStep_wait (s := { s with inputs := l }) hp]
    simp only [pollReady, sampleDout]
    rcases hl : s.dev.levels with _ | ⟨_ | _, _⟩
    · cases Config.freeDout s.dev.draws <;> rfl
    · rfl
    · rfl
  · rw [seqStep_rise hp, seqStep_rise (s := { s with inputs := l }) hp]; rfl
  · rw [seqStep_fall hp, seqStep_fall (s := { s with inputs := l }) hp]
    simp only [lowerClock, captureBit, sampleDout]
    by_cases hk : k < Config.dataClocks
    · rcases hl : s.dev.levels with _ | ⟨_, _⟩ <;> simp only [hk, if_true] <;> rfl
    · simp only [hk, if_false]; rfl
  · rw [seqStep_finish hp, seqStep_finish (s := { s with inputs := l }) hp]
    rcases ho : s.snap.op <;> simp [complete, deliver, deliverWeight, recordTransaction, raise, enter, ho]
    rfl

/-- A step whose next input is a turn of the SEQ agent is that turn, with the rest of the inputs left. -/
theorem step_seq {s : State} {rest : List Input} (h : s.inputs = .seq :: rest) :
    step s = .next { seqStep s with inputs := rest } := by
  rw [step_cons h, ← seqStep_withInputs]; rfl

/-- With no input pending a run is turns of the SEQ agent. -/
theorem run_seq {s : State} (h : s.inputs = []) (n : Nat) : run n s = .next (seqSteps n s) := by
  induction n generalizing s with
  | zero => rfl
  | succ n ih => rw [run_succ (step_nil h), ih (by rw [seqStep_inputs, h])]; rfl

/-- With turns of the SEQ agent pending, a run takes them and leaves the rest. -/
theorem run_seq_inputs (n : Nat) (s : State) (l : List Input) (h : s.inputs = List.replicate n .seq ++ l) :
    run n s = .next (seqSteps n { s with inputs := l }) := by
  induction n generalizing s with
  | zero =>
    have : { s with inputs := l } = s := by rw [← show s.inputs = l by simpa using h]
    simp [this, seqSteps]
  | succ n ih =>
    have hs : step s = .next { seqStep s with inputs := List.replicate n .seq ++ l } := by
      rw [step_cons (x := .seq) (rest := List.replicate n .seq ++ l) (by rw [h]; rfl), ← seqStep_withInputs]; rfl
    rw [run_succ hs, ih _ rfl]
    exact congrArg (fun t => Host.Outcome.next (seqSteps n t)) (seqStep_withInputs s l).symm

/-- `m + n` turns are `m` turns and then `n`. -/
theorem seqSteps_add (m n : Nat) (s : State) : seqSteps (m + n) s = seqSteps n (seqSteps m s) := by
  induction m generalizing s with
  | zero => rw [Nat.zero_add]; rfl
  | succ m ih => rw [Nat.add_right_comm]; exact ih (seqStep s)

end Sys2Proof.Laws
end

