-- ==== Sys2Proof/Tests/Slice0.lean ====
section
/-! SUPPORT. The model's own tests: words written out from the spec's encodings, the well-formedness checks, single steps
against the vectors of spec/95_test_vectors.md, and for every statement that has hypotheses a state that meets them. -/

namespace Sys2Proof.Tests

open Sys2Proof Sys2Proof.Machine Sys2Proof.Laws

/-- The state an outcome goes on to, where it does. -/
def nextOf (o : Host.Outcome State Fault Refusal) : Option State :=
  match o with
  | .next s => some s
  | .fault _ | .refused _ => none

/-- A register's value after an instruction. -/
def readAfter (i : Instr) (r : Reg) (s : State) : Option Word := (nextOf (exec i s)).map (readReg r)

/-- A state in a phase, with a snapshot of a command. -/
def at_ (p : Phase) (op : Op) (s : State) : State := { s with phase := p, snap := { s.snap with op := op } }

/-- Sticky flags from a STATUS word (R19). -/
def flagsOf (w : Word) : Sticky :=
  ⟨w.getLsbD 2, w.getLsbD 3, w.getLsbD 4, w.getLsbD 5, w.getLsbD 6, w.getLsbD 7⟩

/-- The block calibrated for the reference scale: K = 16761, S = 24, CAL = 1 (V10). -/
def calibrated : State := { State.reset with ctrl := ⟨.high, true, false⟩, scale := ⟨16761#16, 24#5⟩ }

/-- A MEASURE about to complete on a difference with offset 0 (V26 .. V44). -/
def measuring (diff : Raw24) (ofs : Raw24) (k : Coeff) (n : Shift) : State :=
  { State.reset with phase := .finish, shreg := diff, snap := ⟨.measure, .high, true, ofs, k, n⟩ }

/-- A READ_CAL about to complete (V21 .. V25). -/
def readingCal (raw ofs : Raw24) : State :=
  { State.reset with phase := .finish, shreg := raw, snap := ⟨.readCal, .high, false, ofs, 0, 0⟩ }

/-! ## Encodings, bit by bit (spec/30_encoding.md R49, R50, R53, R54) -/

theorem test_decode_reads :
    decodeBus ⟨0b0000#4, 0⟩ = .rd .ctrl ∧ decodeBus ⟨0b0001#4, 0⟩ = .rd .cmd ∧ decodeBus ⟨0b0010#4, 0⟩ = .rd .status
      ∧ decodeBus ⟨0b0011#4, 0⟩ = .rd .offset ∧ decodeBus ⟨0b0100#4, 0⟩ = .rd .scale
      ∧ decodeBus ⟨0b0101#4, 0⟩ = .rd .result ∧ decodeBus ⟨0b0110#4, 0⟩ = .rd .lastGrams
      ∧ decodeBus ⟨0b0111#4, 0⟩ = .rd .raw := by decide

/-- The writes of the programs P1 and P2, and one word for each remaining descriptor. -/
theorem test_decode_writes :
    decodeBus ⟨0b1000#4, 0x00000002#32⟩ = .wrCtrl 0x00000002#32
      ∧ decodeBus ⟨0b1001#4, 0x00000004#32⟩ = .wrCmd 0x00000004#32
      ∧ decodeBus ⟨0b1010#4, 0x000000FC#32⟩ = .wrStatus 0x000000FC#32
      ∧ decodeBus ⟨0b1011#4, 0x00FFFC18#32⟩ = .wrOffset 0x00FFFC18#32
      ∧ decodeBus ⟨0b1100#4, 0x00184179#32⟩ = .wrScale 0x00184179#32
      ∧ decodeBus ⟨0b1101#4, 0x00000001#32⟩ = .wrResult 0x00000001#32
      ∧ decodeBus ⟨0b1110#4, 0x00000001#32⟩ = .wrLastGrams 0x00000001#32
      ∧ decodeBus ⟨0b1111#4, 0x00000001#32⟩ = .wrRaw 0x00000001#32 := by decide

theorem test_decode_commands :
    decodeCmd 0x00000000#32 = .ok .nop ∧ decodeCmd 0x00000001#32 = .ok .readRaw ∧ decodeCmd 0x00000002#32 = .ok .tare
      ∧ decodeCmd 0x00000003#32 = .ok .readCal ∧ decodeCmd 0x00000004#32 = .ok .measure
      ∧ decodeCmd 0x0000000F#32 = .ok .abort := by decide

/-- The examples of R110, and 0x0000001F (V68). -/
theorem test_decode_reserved :
    decodeCmd 0x00000005#32 = .error .reservedOpcode ∧ decodeCmd 0x0000000E#32 = .error .reservedOpcode
      ∧ decodeCmd 0x00000010#32 = .error .reservedBits ∧ decodeCmd 0x80000001#32 = .error .reservedBits
      ∧ decodeCmd 0x0000001F#32 = .error .reservedBits := by decide

/-- Every row of spec/opcode_table.json, by its match value. -/
theorem test_decode_table_rows :
    decodeTableWord 8 0x0 = some (.rd .ctrl) ∧ decodeTableWord 8 0x8 = some (.wrCtrl 0)
      ∧ decodeTableWord 8 0x9 = some (.wrCmd 0) ∧ decodeTableWord 8 0xA = some (.wrStatus 0)
      ∧ decodeTableWord 8 0xB = some (.wrOffset 0) ∧ decodeTableWord 8 0xC = some (.wrScale 0)
      ∧ decodeTableWord 8 0xD = some (.wrResult 0) ∧ decodeTableWord 8 0xE = some (.wrLastGrams 0)
      ∧ decodeTableWord 8 0xF = some (.wrRaw 0) ∧ decodeTableWord 32 0x0 = some .nop
      ∧ decodeTableWord 32 0x1 = some .readRaw ∧ decodeTableWord 32 0x2 = some .tare
      ∧ decodeTableWord 32 0x3 = some .readCal ∧ decodeTableWord 32 0x4 = some .measure
      ∧ decodeTableWord 32 0xF = some .abort ∧ decodeTableWord 32 0x5 = none := by decide

/-- The step runs a placed table row: MEASURE after reset raises UNCAL and DONE (V45, W7). -/
theorem test_fetch_word :
    (nextOf (step (State.reset.withFetchWord 32 0x4))).map (fun t => (readReg .status t, t.inputs))
      = some (0x0000000C#32, []) := by decide

/-! ## Well-formedness: an ill-formed term for each check (R34, R35, R40) -/

theorem test_wf_refuses_half_word (v : Word) : BusAccess.wf ⟨Config.baseAddr, 2, true, v⟩ = false := by
  simp [BusAccess.wf, BusAccess.wholeWord]

theorem test_wf_refuses_misaligned (v : Word) : BusAccess.wf ⟨Config.baseAddr + 2, 4, true, v⟩ = false := by
  have : (Config.baseAddr + 2) % 4 ≠ 0 := by unfold Config.baseAddr; omega
  simp [BusAccess.wf, BusAccess.aligned, this]

theorem test_wf_refuses_outside (v : Word) : BusAccess.wf ⟨Config.baseAddr + 32, 4, true, v⟩ = false := by
  simp [BusAccess.wf, BusAccess.inBlock]

theorem test_wf_takes_last_register (v : Word) : BusAccess.wf ⟨Config.baseAddr + 28, 4, true, v⟩ = true := by
  have : (Config.baseAddr + 28) % 4 = 0 := by unfold Config.baseAddr; omega
  simp [BusAccess.wf, BusAccess.wholeWord, BusAccess.aligned, BusAccess.inBlock, this]

/-- An access that begins below `BASE_ADDR` and overlaps CTRL is refused, by its size or by its alignment (R40; 93 row 14). -/
theorem test_overlapping_access_refused (v : Word) (hb : 0 < Config.baseBlock) :
    busTransaction ⟨Config.baseAddr - 1, 2, true, v⟩ = .refused .subWordAccess
      ∧ busTransaction ⟨Config.baseAddr - 3, 4, true, v⟩ = .refused .misalignedAccess := by
  have : (Config.baseAddr - 3) % 4 ≠ 0 := by unfold Config.baseAddr; omega
  simp [busTransaction, BusAccess.wholeWord, BusAccess.aligned, this]

theorem test_instr_wf : Instr.wf (.wrCmd 0x80000001#32) = true := by decide

/-! ## Single steps -/

/-- V17: OFFSET reads sign-extended; RD CMD reads 0 (V73). -/
theorem test_rd_offset_and_cmd :
    (nextOf (exec (.rd .offset) { State.reset with ofs := 0xFFFC18#24 })).map State.rdata = some 0xFFFFFC18#32
      ∧ (nextOf (exec (.rd .cmd) calibrated)).map State.rdata = some 0#32 := by decide

/-- V6: STATUS in WAIT. -/
theorem test_rd_status_waiting : readReg .status (at_ .wait .readRaw State.reset) = 0x00000003#32 := by decide

/-- V9: CAL is refused while K = 0. -/
theorem test_wrCtrl_without_coefficient :
    readAfter (.wrCtrl 0x7#32) .ctrl State.reset = some 0x00000005#32 := by decide

/-- V10. -/
theorem test_wrCtrl_sets_cal :
    readAfter (.wrCtrl 0x2#32) .ctrl { State.reset with scale := ⟨0x4179#16, 24#5⟩ } = some 0x00000002#32 := by decide

/-- V69, V70. -/
theorem test_wrStatus :
    readAfter (.wrStatus 0x14#32) .status { State.reset with flags := flagsOf 0xFC#32 } = some 0x000000E8#32
      ∧ readAfter (.wrStatus 0xFFFFFFFF#32) .status
          { State.reset with flags := flagsOf 0xF04#32, book := ⟨.low, true, .low, true⟩ } = some 0x00000F00#32 := by
  decide

/-- V15, V16. -/
theorem test_wrOffset :
    readAfter (.wrOffset 0x00800000#32) .offset State.reset = some 0xFF800000#32
      ∧ readAfter (.wrOffset 0x12345678#32) .offset State.reset = some 0x00345678#32 := by decide

/-- V11: K = 0 clears CAL. -/
theorem test_wrScale_zero_clears_cal :
    readAfter (.wrScale 0x00180000#32) .ctrl calibrated = some 0#32 := by decide

/-- V12, V13. -/
theorem test_wrScale :
    readAfter (.wrScale 0x00178000#32) .ctrl calibrated = some 0x2#32
      ∧ readAfter (.wrScale 0xFFFFFFFF#32) .scale State.reset = some 0x001FFFFF#32 := by decide

/-- V72. -/
theorem test_read_only_writes :
    nextOf (exec (.wrResult 1) calibrated) = some calibrated
      ∧ nextOf (exec (.wrLastGrams 1) calibrated) = some calibrated
      ∧ nextOf (exec (.wrRaw 1) calibrated) = some calibrated := by decide

/-- V63, V64, V65, V67. -/
theorem test_wrCmd :
    readAfter (.wrCmd 0x5#32) .status (at_ .wait .readRaw State.reset) = some 0x00000013#32
      ∧ readAfter (.wrCmd 0x1F#32) .status (at_ .wait .readRaw State.reset) = some 0x00000013#32
      ∧ readAfter (.wrCmd 0x5#32) .status State.reset = some 0x00000024#32
      ∧ readAfter (.wrCmd 0x80000001#32) .status State.reset = some 0x00000024#32 := by decide

/-- V58, and OVERRUN while BUSY (R108). -/
theorem test_nop :
    readAfter .nop .status State.reset = some 0x00000004#32
      ∧ readAfter .nop .status (at_ (.rise 3) .tare State.reset) = some 0x00000011#32 := by decide

/-- V76: DONE stays while the command waits. -/
theorem test_readRaw_issue :
    readAfter .readRaw .status { State.reset with flags := flagsOf 0x4#32 } = some 0x00000007#32
      ∧ (nextOf (exec .readRaw { State.reset with ctrl := ⟨.low, false, false⟩ })).map (fun t => t.snap.gain)
          = some Gain.low := by decide

/-- V62's case for TARE, and the snapshot's command. -/
theorem test_tare_issue :
    readAfter .tare .status (at_ .wait .readRaw State.reset) = some 0x00000013#32
      ∧ (nextOf (exec .tare State.reset)).map (fun t => (t.phase, t.snap.op, t.ofs)) = some (.wait, .tare, 0) := by decide

/-- The offset is taken at issue (R29). -/
theorem test_readCal_issue :
    (nextOf (exec .readCal { State.reset with ofs := 1000#24 })).map (fun t => (t.phase, t.snap.op, t.snap.ofs))
      = some (.wait, .readCal, 1000#24) := by decide

/-- V45 without and V46 with calibration. -/
theorem test_measure_issue :
    (nextOf (exec .measure { State.reset with lastGrams := 0x55#32, result := 7#32 })).map
        (fun t => (readReg .status t, t.result, t.lastGrams)) = some (0x0000000C#32, 0#32, 0x55#32)
      ∧ (nextOf (exec .measure calibrated)).map (fun t => (t.phase, t.snap.k, t.snap.s))
          = some (.wait, 16761#16, 24#5) := by decide

/-- V59, V60, V61. -/
theorem test_abort :
    readAfter .abort .status State.reset = some 0x00000004#32
      ∧ readAfter .abort .status (at_ .wait .readRaw State.reset) = some 0x00000044#32
      ∧ nextOf (exec .abort (at_ (.fall 10) .readRaw State.reset)) = some (at_ (.fall 10) .readRaw State.reset) := by
  decide

/-- V7: a poll of 1 stays, a poll of 0 enters RISE(0). -/
theorem test_poll :
    (seqStep { at_ .wait .readRaw State.reset with dev := ⟨.unknown 0, [true, false], 1⟩ }).phase = .wait
      ∧ (seqStep { at_ .wait .readRaw State.reset with dev := ⟨.unknown 0, [false], 1⟩ }).phase = .rise 0 := by decide

/-- V4: pulse 3 captures bit 20, and the line is not sampled at pulse 24. -/
theorem test_capture :
    (seqStep { at_ (.fall 3) .readRaw State.reset with dev := ⟨.unknown 0, [true], 1⟩ }).shreg = 0x100000#24
      ∧ (seqStep { at_ (.fall 24) .readRaw State.reset with dev := ⟨.unknown 0, [true], 1⟩ }).dev.levels = [true]
      ∧ (seqStep (at_ (.fall 24) .readRaw State.reset)).phase = .finish := by decide

/-- V3: LOW gain goes on to pulse 26. -/
theorem test_low_gain_pulses :
    (seqStep { at_ (.fall 24) .readRaw State.reset with snap := ⟨.readRaw, .low, false, 0, 0, 0⟩ }).phase = .rise 25
      ∧ (seqStep { at_ (.fall 26) .readRaw State.reset with snap := ⟨.readRaw, .low, false, 0, 0, 0⟩ }).phase
          = .finish := by decide

/-- V3 and V5: the completion of READ_RAW. -/
theorem test_complete_readRaw :
    (readReg .result (seqStep { at_ .finish .readRaw State.reset with shreg := 0x800001#24 })) = 0xFF800001#32
      ∧ (readReg .raw (seqStep { at_ .finish .readRaw State.reset with shreg := 0x800001#24 })) = 0x00800001#32
      ∧ (readReg .status (seqStep (at_ .finish .readRaw State.reset))) = 0x00000204#32 := by decide

/-- V18. -/
theorem test_complete_tare :
    (readReg .offset (seqStep { at_ .finish .tare State.reset with shreg := 0xFFFC18#24, result := 9#32 }))
        = 0xFFFFFC18#32
      ∧ (seqStep { at_ .finish .tare State.reset with shreg := 0xFFFC18#24, result := 9#32 }).result = 9#32 := by decide

/-- V22, V23. -/
theorem test_complete_readCal :
    (seqStep (readingCal 0x7FFFFF#24 0x800000#24)).result = 0x00FFFFFF#32
      ∧ (seqStep (readingCal 0x800000#24 0x7FFFFF#24)).result = 0xFF000001#32 := by decide

/-- The reference scale and both signs negative (V26, V33); ties go up (V28 .. V31); saturation at S = 7 and none at S = 8
(V38, V39, V40). -/
theorem test_complete_measure :
    (seqStep (measuring 0x01EFE9#24 1000#24 16761#16 24#5)).result = 0x0000007E#32
      ∧ (seqStep (measuring 0xFE17E7#24 1000#24 0xBE87#16 24#5)).lastGrams = 0x0000007E#32
      ∧ (seqStep (measuring 3 0 1 1)).result = 2#32 ∧ (seqStep (measuring (-3) 0 1 1)).result = 0xFFFFFFFF#32
      ∧ (seqStep (measuring 5 0 1 1)).result = 3#32 ∧ (seqStep (measuring (-5) 0 1 1)).result = 0xFFFFFFFE#32
      ∧ (seqStep (measuring 0x800000#24 0x7FFFFF#24 0x8000#16 7#5)).result = 0x7FFFFFFF#32
      ∧ (seqStep (measuring 0x800000#24 0x7FFFFF#24 0x8000#16 7#5)).flags.sat = true
      ∧ (seqStep (measuring 0x7FFFFF#24 0x800000#24 0x8000#16 7#5)).result = 0x80000000#32
      ∧ (seqStep (measuring 0x7FFFFF#24 0x800000#24 0x8000#16 8#5)).result = 0x80000080#32
      ∧ (seqStep (measuring 0x7FFFFF#24 0x800000#24 0x8000#16 8#5)).flags.sat = false := by decide

/-- V78: a reset in FALL(12) of a TARE. -/
theorem test_reset_in_pulse_train :
    (nextOf (step { at_ (.fall 12) .tare State.reset with ofs := 5#24, sck := true, inputs := [.rst] })).map
      (fun t => (t.phase, t.ofs, t.sck)) = some (.idle, 0#24, false) := by decide

/-- V74, V75. -/
theorem test_irq :
    (nextOf (exec .nop { State.reset with ctrl := ⟨.high, false, true⟩ })).map irq = some true
      ∧ (nextOf (exec (.wrCtrl 0x4#32) { State.reset with flags := flagsOf 0x4#32 })).map irq = some true := by decide

/-- The byte lanes of OFFSET = -1000 (R38). -/
theorem test_byte_lanes :
    byteLane (readReg .offset { State.reset with ofs := 0xFFFC18#24 }) 0 = 0x18#8
      ∧ byteLane (readReg .offset { State.reset with ofs := 0xFFFC18#24 }) 1 = 0xFC#8
      ∧ byteLane (readReg .offset { State.reset with ofs := 0xFFFC18#24 }) 3 = 0xFF#8 := by decide

/-- V78's cut, for the device: a reset in a pulse train leaves a fresh unknown gain, one in IDLE the gain that was selected. -/
theorem test_reset_leaves_device :
    deviceAfterReset (.fall 12) ⟨.selected .low, [true], 5⟩ = ⟨.unknown 5, [true], 6⟩
      ∧ deviceAfterReset .idle ⟨.selected .low, [true], 5⟩ = ⟨.selected .low, [true], 5⟩
      ∧ conversionGain ⟨.selected .low, [true], 5⟩ = .low := by decide

/-- A message: the host goes on at once, and the channel delivers it or drops it (R93). -/
theorem test_send_never_blocks (r : Record) (s : State) :
    System.run [.send r] [.host] ⟨.start, s⟩ = ⟨⟨1, 0, 0, [.sent r]⟩, s⟩
      ∧ (HostState.delivered ⟨1, 0, 0, [.sent r]⟩ = [r] ∨ HostState.delivered ⟨1, 0, 0, [.sent r]⟩ = []) := by
  refine ⟨rfl, ?_⟩
  cases h : Config.freeDelivery 0 <;> simp [HostState.delivered, deliveredFrom, h]

/-- The longest text of the procedure fits a record, and a text of 60 characters does not (R93, R99). -/
theorem test_record_bound :
    "Put a weight between 100g and 500g on the scale.".length = 48
      ∧ ¬ (String.ofList (List.replicate 60 'x')).length ≤ 59 := by decide

/-- W9: the detection threshold. -/
theorem test_detection_threshold :
    exceedsThreshold 0x000186A0#32 = false ∧ exceedsThreshold 0x000186A1#32 = true
      ∧ exceedsThreshold 0xFFFE7960#32 = false ∧ exceedsThreshold 0xFFFE795F#32 = true := by decide

/-- `setcal 1` reads CTRL and writes it with bit 1 set (R58, P2 line 16). -/
theorem test_setcal :
    (System.run (setCal true) [.host, .host]
      ⟨.start, { State.reset with ctrl := ⟨.low, false, false⟩, scale := ⟨1#16, 0⟩ }⟩).block.ctrl
      = ⟨.low, true, false⟩ := by decide

/-! ## Witnesses: a state and operands that meet a statement's hypotheses, clause by clause -/

/-- A READ_RAW whose pulse train is about to begin. -/
def starting (g : Gain) : State := { State.reset with phase := .rise 0, snap := ⟨.readRaw, g, false, 0, 0, 0⟩ }

/-- A MEASURE about to complete with its largest weight. -/
def saturating : State := measuring 0x7FFFFF#24 0x800000#24 32767#16 0#5

theorem witness_EncodeOfDecodeLosesNothing : decodeCmd 0x0000000F#32 = .ok .abort := by decide

theorem witness_ReservedWordsOnlyRaiseFlags :
    (∀ v ∈ [0x5#32, 0xE#32, 0x10#32, 0x1F#32],
        (5 ≤ v.toNat % 16 ∧ v.toNat % 16 ≤ 14) ∨ v.toNat / 16 ≠ 0)
      ∧ State.reset.phase = .idle ∧ (starting .high).phase ≠ .idle := ⟨by simp, rfl, by decide⟩

theorem witness_StepRunsDecodedTransaction :
    { State.reset with inputs := [.host ⟨0x8#4, 7#32⟩] }.inputs = .host ⟨0x8#4, 7#32⟩ :: [] := rfl

theorem witness_StepRunsEncodedInstruction :
    { State.reset with inputs := [.host (encode .measure).onPort] }.inputs = .host (encode .measure).onPort :: [] := rfl

theorem witness_StepWithoutTransaction :
    { State.reset with inputs := [.seq] }.inputs = .seq :: [] ∧ State.reset.inputs = []
      ∧ { starting .low with inputs := [.rst] }.inputs = .rst :: [] ∧ State.reset.phase = .idle := ⟨rfl, rfl, rfl, rfl⟩

/-- The first and last register; a refusal of each name that crosses an edge of the block; and the first word beyond it. -/
theorem witness_IntegrationAccessIsOneWordOrRefused :
    (0 < 8 ∧ { State.reset with inputs := [.bus ⟨Config.baseAddr + 4 * 0, 4, false, 0⟩] }.inputs
        = .bus ⟨Config.baseAddr + 4 * 0, 4, false, 0⟩ :: [])
      ∧ (7 < 8 ∧ { State.reset with inputs := [.bus ⟨Config.baseAddr + 4 * 7, 4, true, 0⟩] }.inputs
        = .bus ⟨Config.baseAddr + 4 * 7, 4, true, 0⟩ :: [])
      ∧ (⟨Config.baseAddr - 1, 2, true, 0⟩ : BusAccess).size ≠ 4
      ∧ ((⟨Config.baseAddr + 31, 4, true, 0⟩ : BusAccess).size = 4
        ∧ (⟨Config.baseAddr + 31, 4, true, 0⟩ : BusAccess).addr % 4 ≠ 0)
      ∧ ((⟨Config.baseAddr + 32, 4, true, 0⟩ : BusAccess).size = 4
        ∧ (⟨Config.baseAddr + 32, 4, true, 0⟩ : BusAccess).addr % 4 = 0
        ∧ Config.baseAddr + 32 ≤ (⟨Config.baseAddr + 32, 4, true, 0⟩ : BusAccess).addr) := by
  have : Config.baseAddr % 4 = 0 := by unfold Config.baseAddr; omega
  refine ⟨⟨by omega, rfl⟩, ⟨by omega, rfl⟩, by simp, ⟨rfl, ?_⟩, ⟨rfl, ?_, ?_⟩⟩ <;> simp only <;> omega

theorem witness_RegisterBytesAreLittleEndianLanes :
    (3 : Nat) < 4 ∧ Config.baseAddr ≤ Config.baseAddr ∧ Config.baseAddr + 31 < Config.baseAddr + 32 := by omega

theorem witness_WriteStatusClearsNamedFlags :
    (0x4#32).toNat / 4 % 2 = 1 ∧ saturating.phase = .finish ∧ saturating.snap.op = .measure
      ∧ weightSat saturating.shreg saturating.snap ≠ weight saturating.shreg saturating.snap := by decide

theorem witness_RegisterWritesAreIdempotent : Instr.wrStatus 4#32 ∈ [Instr.wrCtrl 4#32, .wrOffset 4#32, .wrScale 4#32, .wrStatus 4#32] := by
  decide

theorem witness_ReadAfterWriteReturnsLegalisedValue :
    Instr.wrRaw 1#32 ∈ [Instr.wrResult 1#32, .wrLastGrams 1#32, .wrRaw 1#32] := by decide

/-- The words at the edges of the reserved ranges, and each phase and calibration the clauses ask for. -/
theorem witness_WriteCmdDecoder :
    ((starting .high).phase ≠ .idle ∧ (0xE#32 : Word) ≠ 0xF#32)
      ∧ (at_ .wait .tare State.reset).phase = .wait ∧ clocking (starting .high).phase = true
      ∧ State.reset.phase = .idle
      ∧ (0x2#32, Op.tare) ∈ [(0x1#32, Op.readRaw), (0x2#32, Op.tare), (0x3#32, Op.readCal)]
      ∧ (calibrated.phase = .idle ∧ calibrated.ctrl.cal = true)
      ∧ State.reset.ctrl.cal = false
      ∧ 16 ≤ (0x10#32).toNat ∧ (5 ≤ (0x5#32).toNat ∧ (0x5#32).toNat ≤ 14) ∧ (5 ≤ (0xE#32).toNat ∧ (0xE#32).toNat ≤ 14) := by
  decide

theorem witness_CommandWordIsItsCommand : decodeCmd 0x4#32 = .ok .measure := by decide

theorem witness_NopOnlySetsDone : State.reset.phase = .idle ∧ (at_ .wait .tare State.reset).phase ≠ .idle := by decide

theorem witness_DeviceCommandsIssueFromIdle :
    State.reset.phase = .idle
      ∧ (Instr.tare, Op.tare) ∈ [(Instr.readRaw, Op.readRaw), (Instr.tare, Op.tare), (Instr.readCal, Op.readCal)] := by
  decide

theorem witness_CalibratedMeasureIssuesFromIdle : calibrated.phase = .idle ∧ calibrated.ctrl.cal = true := by decide

theorem witness_UncalibratedMeasureReturnsZero : State.reset.phase = .idle ∧ State.reset.ctrl.cal = false := by decide

theorem witness_AbortByPhase :
    State.reset.phase = .idle ∧ (at_ .wait .tare State.reset).phase = .wait
      ∧ (at_ (.rise 0) .tare State.reset).phase = .rise 0 ∧ (at_ (.fall 24) .tare State.reset).phase = .fall 24
      ∧ (at_ .finish .tare State.reset).phase = .finish
      ∧ ((0x1F#32).toNat % 16 = 15 ∧ (0x1F#32 : Word) ≠ 0x0000000F#32) := by decide

theorem witness_BusyDropsCommandWithOverrun :
    (at_ .wait .tare State.reset).phase ≠ .idle ∧ (0x1F#32 : Word) ≠ 0x0000000F#32
      ∧ Instr.measure ∈ [Instr.nop, .readRaw, .tare, .readCal, .measure] := by decide

/-- A presented level of each value, none presented, and the three ways out of WAIT. -/
theorem witness_PollStartsTrainOnLowLevel :
    (at_ .wait .tare State.reset).phase = .wait
      ∧ { at_ .wait .tare State.reset with inputs := [.seq, .rst] }.inputs = .seq :: [.rst]
      ∧ (at_ .wait .tare State.reset).dev.levels = []
      ∧ { at_ .wait .tare State.reset with dev := ⟨.unknown 0, [true], 1⟩ }.dev.levels = true :: []
      ∧ ((nextOf (step { at_ .wait .tare State.reset with dev := ⟨.unknown 0, [false], 1⟩ })).map State.phase = some (.rise 0))
      ∧ ((nextOf (step { at_ .wait .tare State.reset with inputs := [.host (encode .abort).onPort] })).map State.phase
          = some .idle)
      ∧ ((nextOf (step { at_ .wait .tare State.reset with inputs := [.rst] })).map State.phase = some .idle) := by
  decide

theorem witness_ClockEdgesCaptureMsbFirst :
    { starting .low with inputs := [.seq, .rst] }.inputs = .seq :: [.rst] ∧ (starting .low).phase = .rise 0
      ∧ (at_ (.fall 24) .tare State.reset).phase = .fall 24 ∧ 24 ≤ 24
      ∧ (at_ (.fall 23) .tare State.reset).phase = .fall 23 ∧ 23 < 24 := by decide

/-- The weight 549739003905 of V37 is between the two bounds. -/
theorem witness_CompletionWritesAllResultsAtOnce :
    (∀ op ∈ [Op.readRaw, .tare, .readCal, .measure],
        (at_ .finish op { State.reset with inputs := [.seq] }).phase = .finish
          ∧ (at_ .finish op { State.reset with inputs := [.seq] }).inputs = .seq :: []
          ∧ (at_ .finish op { State.reset with inputs := [.seq] }).snap.op = op)
      ∧ (549739003905 * 2 ^ saturating.snap.s.toNat
            ≤ (saturating.shreg.toInt - saturating.snap.ofs.toInt) * saturating.snap.k.toInt
              + (if saturating.snap.s.toNat = 0 then 0 else 2 ^ (saturating.snap.s.toNat - 1))
          ∧ (saturating.shreg.toInt - saturating.snap.ofs.toInt) * saturating.snap.k.toInt
              + (if saturating.snap.s.toNat = 0 then 0 else 2 ^ (saturating.snap.s.toNat - 1))
            < (549739003905 + 1) * 2 ^ saturating.snap.s.toNat)
      ∧ (starting .high).phase ≠ .finish := by decide

theorem witness_SequencerStepFrame :
    (starting .high).phase ≠ .finish
      ∧ (seqStep { at_ .finish .tare State.reset with shreg := 5#24 }).ofs
          ≠ { at_ .finish .tare State.reset with shreg := 5#24 }.ofs
      ∧ (seqStep { at_ .finish .readRaw State.reset with shreg := 5#24 }).result
          ≠ { at_ .finish .readRaw State.reset with shreg := 5#24 }.result
      ∧ saturating.phase = .finish ∧ (seqStep saturating).lastGrams ≠ saturating.lastGrams
      ∧ (seqStep saturating).flags.sat ≠ saturating.flags.sat := by decide

theorem witness_DeviceNeverReadyHangsInWait :
    (at_ .wait .tare State.reset).phase = .wait
      ∧ { at_ .wait .tare State.reset with inputs := [.seq, .seq, .rst] }.inputs = List.replicate 2 .seq ++ [.rst]
      ∧ { at_ .wait .tare State.reset with dev := ⟨.unknown 0, [true, true, false], 1⟩ }.dev.levels
          = List.replicate 2 true ++ [false] := by decide

theorem witness_PulseTrainEdgeCount :
    ((starting .high).phase = .rise 0 ∧ (starting .high).sck = false ∧ (starting .high).snap.gain = .high)
      ∧ ((starting .low).phase = .rise 0 ∧ (starting .low).sck = false ∧ (starting .low).snap.gain = .low) := by decide

theorem witness_PulseTrainHoldTime :
    ((starting .high).phase = .rise 0 ∧ (starting .high).snap.gain = .high)
      ∧ ((starting .low).phase = .rise 0 ∧ (starting .low).snap.gain = .low) := by decide

theorem witness_WeightRoundsHalfUp : 0 < (31#5).toNat ∧ 0 < (1#5).toNat ∧ (0#5).toNat = 0 := by decide

theorem witness_SaturationOnlyBelowShiftEight :
    2147483647 < weight saturating.shreg saturating.snap
      ∧ weight 0x800000#24 ⟨.measure, .high, true, 0x7FFFFF#24, 32767#16, 0#5⟩ < -2147483648
      ∧ (-2147483648 ≤ weight 0 ⟨.measure, .high, true, 0, 1, 8#5⟩ ∧ weight 0 ⟨.measure, .high, true, 0, 1, 8#5⟩ ≤ 2147483647)
      ∧ 8 ≤ (8#5).toNat ∧ saturating.phase = .finish ∧ saturating.snap.op = .measure := by decide

theorem witness_TransactionDeliversPresentedSample :
    ∃ s : State, s.phase = .wait ∧ s.snap.op = .measure
      ∧ s.inputs = List.replicate (transactionSteps 3 s.snap.gain) .seq ++ [.rst]
      ∧ s.dev.levels = presents 3 0x123456#24 ++ [true] :=
  ⟨{ at_ .wait .measure State.reset with
      inputs := List.replicate (transactionSteps 3 .high) .seq ++ [.rst]
      dev := ⟨.unknown 0, presents 3 0x123456#24 ++ [true], 1⟩ }, rfl, rfl, rfl, rfl⟩

/-- The input list of a TARE, its transaction, a READ_CAL and its transaction, with gain HIGH. -/
def tareThenReadCal (p q : Nat) : List Input :=
  .host (encode .tare).onPort :: (List.replicate (transactionSteps p .high) .seq
    ++ .host (encode .readCal).onPort :: (List.replicate (transactionSteps q .high) .seq ++ []))

theorem witness_TareThenReadCalIsZero :
    ∃ s : State, s.phase = .idle ∧ s.ctrl.gain = .high ∧ s.inputs = tareThenReadCal 2 0
      ∧ s.dev.levels = presents 2 0x800000#24 ++ (presents 0 0x800000#24 ++ []) :=
  ⟨{ State.reset with
      inputs := tareThenReadCal 2 0
      dev := ⟨.unknown 0, presents 2 0x800000#24 ++ (presents 0 0x800000#24 ++ []), 1⟩ }, rfl, rfl, rfl, rfl⟩

theorem witness_TransactionCompletesUnderAnyInterleaving :
    ∃ s : State, s.phase = .wait ∧ s.inputs = [.seq, .host ⟨0xC#4, 0#32⟩, .host ⟨0x2#4, 0⟩]
      ∧ s.inputs.all Input.quiet = true ∧ s.dev.levels = presents 1 0x7FFFFF#24 ++ [] :=
  ⟨{ at_ .wait .measure State.reset with
      inputs := [.seq, .host ⟨0xC#4, 0#32⟩, .host ⟨0x2#4, 0⟩]
      dev := ⟨.unknown 0, presents 1 0x7FFFFF#24 ++ [], 1⟩ }, rfl, rfl, by decide, rfl⟩

theorem witness_HostWritesInvisibleToTransaction :
    { starting .high with inputs := [.seq, .host ⟨0x8#4, 1#32⟩, .host ⟨0x2#4, 0⟩, .seq] }.inputs
        = [.seq, .host ⟨0x8#4, 1#32⟩, .host ⟨0x2#4, 0⟩, .seq]
      ∧ [Input.seq, .host ⟨0x8#4, 1#32⟩, .host ⟨0x2#4, 0⟩, .seq].all Input.quiet = true := by decide

/-- A pulse train, a next state of it, and its end by completion and by reset. -/
theorem witness_PulseTrainCannotBeInterrupted :
    clocking (starting .low).phase = true ∧ (0x1#32 : Word) ≠ 0x0000000F#32
      ∧ nextOf (exec (decodeBus ⟨0x8#4, 1#32⟩) (starting .low)) ≠ none
      ∧ (clocking (at_ .finish .tare State.reset).phase = true
        ∧ (nextOf (step (at_ .finish .tare State.reset))).map State.phase = some .idle)
      ∧ (nextOf (step { starting .low with inputs := [.rst] })).map State.phase = some .idle := by decide

theorem witness_SnapshotUnreadWhenIdle :
    State.reset.phase = .idle
      ∧ (nextOf (step { State.reset with inputs := [.host (encode .tare).onPort] })).map State.phase = some .wait := by
  decide

theorem reset_inv : Inv State.reset := by
  constructor <;> simp [State.reset, Phase.pulse, Phase.isFall]

theorem witness_StepKeepsInvariant :
    Inv State.reset ∧ nextOf (step { State.reset with inputs := [.host (encode .tare).onPort] }) ≠ none :=
  ⟨reset_inv, by decide⟩

theorem witness_CalibratedImpliesNonzeroCoefficient :
    calibrated.ctrl.cal = true ∧ calibrated.scale.k.toInt ≠ 0
      ∧ (nextOf (step { calibrated with inputs := [.host ⟨0x0#4, 0⟩] })).map (fun t => t.ctrl.cal) = some true := by
  decide

theorem witness_LastGramsOnlyByMeasure :
    (nextInput saturating).1 ≠ .rst
      ∧ (nextOf (step saturating)).map State.lastGrams = some 0x7FFFFFFF#32 ∧ saturating.lastGrams = 0 := by decide

/-- For each flag a step that sets it, and for DONE each word that sets it alone. -/
theorem witness_FlagsAreSetOnlyByTheirCause :
    State.reset.flags = flagsOf 0
      ∧ (nextOf (step { State.reset with inputs := [.host (encode .measure).onPort] })).map State.flags
          = some (flagsOf 0xC#32)
      ∧ (nextOf (step { starting .low with inputs := [.host (encode .tare).onPort] })).map State.flags
          = some (flagsOf 0x10#32)
      ∧ (nextOf (step { State.reset with inputs := [.host ⟨0x9#4, 0x5#32⟩] })).map State.flags = some (flagsOf 0x24#32)
      ∧ (nextOf (step { at_ .wait .tare State.reset with inputs := [.host (encode .abort).onPort] })).map State.flags
          = some (flagsOf 0x44#32)
      ∧ (nextOf (step saturating)).map State.flags = some (flagsOf 0x84#32)
      ∧ (nextOf (step { State.reset with inputs := [.host (encode .nop).onPort] })).map State.flags = some (flagsOf 0x4#32)
      ∧ (nextOf (step { State.reset with inputs := [.host (encode .abort).onPort] })).map State.flags = some (flagsOf 0x4#32) := by
  decide

/-- For each clause a step that clears or sets what it is about. -/
theorem witness_FlagsAreClearedOnlyByTheirCause :
    (calibrated.ctrl.cal = true ∧ calibrated.scale.k ≠ 0)
      ∧ (nextOf (step { State.reset with flags := flagsOf 0xFC#32, inputs := [.host ⟨0xA#4, 0x84#32⟩] })).map State.flags
          = some (flagsOf 0x78#32)
      ∧ (nextOf (step { calibrated with inputs := [.host ⟨0x8#4, 0#32⟩] })).map (fun t => t.ctrl.cal) = some false
      ∧ (nextOf (step { calibrated with inputs := [.host ⟨0xC#4, 0x00010000#32⟩] })).map (fun t => t.ctrl.cal) = some false
      ∧ (nextOf (step { State.reset with scale := ⟨1#16, 0⟩, inputs := [.host ⟨0x8#4, 2#32⟩] })).map (fun t => t.ctrl.cal)
          = some true
      ∧ (nextOf (step { at_ .finish .tare State.reset with book := ⟨.low, true, .high, false⟩ })).map
          (fun t => (readReg .status t).extractLsb' 8 4) = some 0b1110#4 := by decide

theorem witness_InterruptIsDoneAndEnabled :
    irq { State.reset with ctrl := ⟨.high, false, true⟩, flags := flagsOf 0x4#32 } = true
      ∧ ((nextOf (step { State.reset with ctrl := ⟨.high, false, true⟩, inputs := [.host (encode .measure).onPort] })).map
          (fun t => (t.flags.uncal, t.flags.done, irq t)) = some (true, true, true))
      ∧ (0x4#32).getLsbD 2 = true ∧ (0x3#32).getLsbD 2 = false := by decide

theorem witness_ResetClearsTheBlock :
    { starting .low with inputs := [.rst] }.inputs = .rst :: [] ∧ State.reset.phase = .idle := by decide

theorem witness_ResetDoesNotReachTheDevice :
    { starting .low with inputs := [.rst] }.inputs = .rst :: []
      ∧ ((starting .low).phase ≠ .idle ∧ (starting .low).phase ≠ .wait)
      ∧ (State.reset.phase = .idle ∧ (at_ .wait .tare State.reset).phase = .wait)
      ∧ Inv (starting .low) :=
  ⟨rfl, by decide, by decide, by constructor <;> simp [starting, State.reset, Phase.pulse, Phase.isFall]⟩

/-- A second transaction under LOW after a first under HIGH, about to complete. -/
theorem witness_GainTakesEffectOneSampleLater :
    ∃ s : State, Inv s ∧ s.phase = .finish ∧ s.inputs = .seq :: [] ∧ s.book.pgainV = true ∧ s.snap.gain ≠ s.book.pgain :=
  ⟨{ State.reset with
      phase := .finish, snap := ⟨.readRaw, .low, false, 0, 0, 0⟩
      book := ⟨.high, true, .high, false⟩, dev := ⟨.selected .high, [], 1⟩, inputs := [.seq] },
    by constructor <;> simp [State.reset, Phase.pulse, Phase.isFall], rfl, rfl, rfl, by decide⟩

/-- The third host turn ends step 1; and step 7's last write sets CAL. -/
theorem witness_CalibrationSetsCalOnlyAtTheEnd :
    (System.run (calibrate 0) (List.replicate 3 .host) ⟨.start, State.reset⟩).host.pc = 3
      ∧ (({ State.reset with scale := ⟨1#16, 0⟩ } : State).ctrl.cal = false
        ∧ (System.turn (calibrate 0) .host ⟨⟨40, 0, 0, []⟩, { State.reset with scale := ⟨1#16, 0⟩ }⟩).block.ctrl.cal = true) :=
  ⟨rfl, rfl, rfl⟩

theorem witness_DetectionLoopExitsAboveThreshold :
    (⟨⟨27, 0, 100001#32, []⟩, State.reset⟩ : System).host.pc = 27
      ∧ 100000 < (100001#32).toInt ∧ (0xFFFE795F#32).toInt < -100000
      ∧ (-100000 ≤ (0xFFFE7960#32).toInt ∧ (0xFFFE7960#32).toInt ≤ 100000)
      ∧ (-100000 ≤ (100000#32).toInt ∧ (100000#32).toInt ≤ 100000) := by decide

/-- The floor is the integer the number lies at or above by less than 1. -/
theorem floor_eq {q : ℚ} {n : Int} (h0 : (n : ℚ) ≤ q) (h1 : q < n + 1) : q.floor = n := by
  have a := Rat.floor_le q
  have b := Rat.lt_floor_add_one q
  have c : q.floor < n + 1 := by exact_mod_cast lt_of_le_of_lt a h1
  have d : n < q.floor + 1 := by exact_mod_cast lt_of_le_of_lt h0 b
  omega

/-- A magnitude under one half rounds to 0. -/
theorem roundHalfAway_small {q : ℚ} (h0 : 0 ≤ q) (h1 : q < 1 / 2) : roundHalfAway q = 0 := by
  rw [roundHalfAway, if_pos h0]
  apply floor_eq <;> push_cast <;> linarith

/-- V54. -/
theorem test_hostKs_largest_factor : hostKs (2 ^ 32) 0 = some (1, 31) := by
  have h : hostCoeff (2 ^ 32) 0 31 = 1 := by
    rw [hostCoeff, roundHalfAway, if_pos (by norm_num)]
    apply floor_eq <;> norm_num
  simp [hostKs, hostKsFrom, h, coeffFits]

/-- V55: every shift rounds K to 0. -/
theorem test_hostKs_fails : hostKs (2 ^ 33) 0 = none := by
  have h : ∀ n ≤ 31, hostKsFrom (2 ^ 33) 0 n = none := by
    intro n
    induction n with
    | zero =>
      intro _
      have : hostCoeff (2 ^ 33) 0 0 = 0 := roundHalfAway_small (by norm_num) (by norm_num)
      simp [hostKsFrom, this, coeffFits]
    | succ n ih =>
      intro hn
      have hp : (2 : ℚ) ^ (n + 1) ≤ 2 ^ 31 := pow_le_pow_right₀ (by norm_num) hn
      have : hostCoeff (2 ^ 33) 0 (n + 1) = 0 := by
        apply roundHalfAway_small
        · positivity
        · rw [div_lt_iff₀ (by positivity)]; norm_num at hp ⊢; linarith
      simp [hostKsFrom, this, coeffFits, ih (by omega)]
  exact h 31 (le_refl _)

/-- A quotient of 32768 or more rounds to a coefficient K cannot hold. -/
theorem coeffFits_large {q : ℚ} (h : 32768 ≤ q) : coeffFits (roundHalfAway q) = false := by
  have : (32768 : Int) ≤ roundHalfAway q := by
    rw [roundHalfAway, if_pos (by linarith)]
    have b := Rat.lt_floor_add_one (q + 1 / 2)
    push_cast at b
    have : (32767 : Int) < (q + 1 / 2).floor := by
      have : (32767 : ℚ) < ((q + 1 / 2).floor : ℚ) := by linarith
      exact_mod_cast this
    omega
  simp only [coeffFits, Bool.and_eq_false_iff, decide_eq_false_iff_not]
  omega

/-- R103's examples: 125953 counts for 125.83 g give K = 16761 with S = 24 for F = 0 and S = 20 for F = 4. -/
theorem test_hostKs_reference :
    hostKs (scaleFactor 125953#32) 0 = some (16761, 24) ∧ hostKs (scaleFactor 125953#32) 4 = some (16761, 20) := by
  have hx : scaleFactor 125953#32 = 12595300 / 12583 := by
    have : (125953#32).toInt = 125953 := by decide
    rw [scaleFactor, this, Config.refMassG]; norm_num
  have hbig : ∀ n f : Nat, 25 ≤ n + f → coeffFits (hostCoeff (12595300 / 12583) f n) = false := by
    intro n f h
    apply coeffFits_large
    rw [le_div_iff₀ (by norm_num)]
    have : (2 : ℚ) ^ 25 ≤ 2 ^ (n + f) := pow_le_pow_right₀ (by norm_num) h
    norm_num at this ⊢; linarith
  have hfit : ∀ n f : Nat, n + f = 24 → hostCoeff (12595300 / 12583) f n = 16761 := by
    intro n f h
    rw [hostCoeff, h, roundHalfAway, if_pos (by norm_num)]
    apply floor_eq <;> norm_num
  rw [hx]
  constructor <;> simp [hostKs, hostKsFrom, hbig] <;> simp [hfit, coeffFits]

/-- Step 7 takes F from the program: at `x` = 125953 and F = 4 its SCALE write loads K = 16761 and S = 20 (R102, R103). -/
theorem test_computeFactor_uses_F :
    (System.run (computeFactor 4) [.host, .host] ⟨⟨5, 0, 125953#32, []⟩, State.reset⟩).block.scale = ⟨16761#16, 20#5⟩ := by
  have h := test_hostKs_reference.2
  simp [System.run, System.turn, computeFactor, doCmdResult, doCmd, waitDone, cmdLine, System.line, System.transact,
    HostState.holds, HostState.value, HostState.jump, h, writeTo, exec, execWrScale, scaleWordOf, scaleWord, kField, sField]

theorem witness_HostConversionPicksLargestShift : hostKs (2 ^ 32) 0 = some (1, 31) ∧ hostKs (2 ^ 33) 0 = none :=
  ⟨test_hostKs_largest_factor, test_hostKs_fails⟩

theorem witness_HostConversionErrorBound :
    hostKs (2 ^ 32) 0 = some (1, 31)
      ∧ ∃ p : Snapshot, p.k = BitVec.ofInt 16 1 ∧ p.s = BitVec.ofNat 5 31 :=
  ⟨test_hostKs_largest_factor, ⟨.measure, .high, true, 0, BitVec.ofInt 16 1, BitVec.ofNat 5 31⟩, rfl, rfl⟩

end Sys2Proof.Tests
end

section
/-! PROOFS. What a step does to CTRL and SCALE, and the invariant of R17. -/

namespace Sys2Proof.Proofs

open Sys2Proof Sys2Proof.Machine Sys2Proof.Laws

/-! Who writes CTRL and SCALE -/

/-- No word written to CMD moves CTRL or SCALE. -/
theorem execWrCmd_keeps_ctrl_scale {v : Word} {s s' : State} (h : execWrCmd v s = .next s') :
    s'.ctrl = s.ctrl ∧ s'.scale = s.scale := by
  obtain ⟨-, -, he⟩ | ⟨-, op, -, he⟩ | ⟨-, -, -, he⟩ | ⟨-, -, -, he⟩ | ⟨-, -, he⟩ | ⟨-, -, he⟩ | ⟨-, -, he⟩ | ⟨-, -, he⟩ :=
    execWrCmd_spec v s
  all_goals
    cases he.symm.trans h
    exact ⟨rfl, rfl⟩

/-- Of the transactions only WR CTRL (R74) and WR SCALE (R78) write CTRL or SCALE. -/
theorem exec_decodeBus_ctrl_scale {t : Transaction} {s s' : State} (h : exec (decodeBus t) s = .next s') :
    (s'.ctrl = s.ctrl ∧ s'.scale = s.scale)
      ∨ (∃ v, decodeBus t = .wrCtrl v ∧ s'.ctrl = ⟨gainField v, calField v && s.scale.k != 0, ieField v⟩
          ∧ s'.scale = s.scale)
      ∨ (∃ v, decodeBus t = .wrScale v ∧ s'.ctrl = { s.ctrl with cal := s.ctrl.cal && kField v != 0 }
          ∧ s'.scale = ⟨kField v, sField v⟩) := by
  obtain ⟨r, hd⟩ | ⟨v, hd⟩ | ⟨v, hd⟩ | ⟨v, hd⟩ | ⟨v, hd⟩ | ⟨v, hd⟩ | ⟨v, hd⟩ | ⟨v, hd⟩ | ⟨v, hd⟩ := decodeBus_cases t
  all_goals rw [hd] at h ⊢
  · cases h; exact .inl ⟨rfl, rfl⟩
  · cases h; exact .inr (.inl ⟨v, rfl, rfl, rfl⟩)
  · exact .inl (execWrCmd_keeps_ctrl_scale h)
  · cases h; exact .inl ⟨rfl, rfl⟩
  · cases h; exact .inl ⟨rfl, rfl⟩
  · cases h; exact .inr (.inr ⟨v, rfl, rfl, rfl⟩)
  · cases h; exact .inl ⟨rfl, rfl⟩
  · cases h; exact .inl ⟨rfl, rfl⟩
  · cases h; exact .inl ⟨rfl, rfl⟩

/-- Where the next input is a transaction, its decoded form is the next instruction. -/
theorem nextInstr_of_transaction {s : State} {t : Transaction}
    (h : (nextInput s).1 = .host t ∨ ∃ a, (nextInput s).1 = .bus a ∧ busTransaction a = .next t) :
    nextInstr s = some (decodeBus t) := by
  obtain ht | ⟨a, ha, ht⟩ := h
  · simp only [nextInstr, ht]
  · simp only [nextInstr, ha, ht]

/-- Everything a step does to CTRL and SCALE: it leaves both, resets both (R132), or is WR CTRL or WR SCALE. -/
theorem step_ctrl_scale_cases {s s' : State} (h : step s = .next s') :
    (s'.ctrl = s.ctrl ∧ s'.scale = s.scale)
      ∨ ((nextInput s).1 = .rst ∧ s'.ctrl = ⟨.high, false, false⟩ ∧ s'.scale = ⟨0, 0⟩)
      ∨ (∃ v, nextInstr s = some (.wrCtrl v) ∧ s'.ctrl = ⟨gainField v, calField v && s.scale.k != 0, ieField v⟩
          ∧ s'.scale = s.scale)
      ∨ (∃ v, nextInstr s = some (.wrScale v) ∧ s'.ctrl = { s.ctrl with cal := s.ctrl.cal && kField v != 0 }
          ∧ s'.scale = ⟨kField v, sField v⟩) := by
  obtain ⟨l, hl⟩ := nextInput_rest s
  obtain ⟨-, rfl⟩ | ⟨hi, rfl⟩ | ⟨t, ht, he⟩ := step_cases h
  · obtain ⟨hc, hs, -, -⟩ := seqStep_frame (nextInput s).2
    exact .inl ⟨by rw [hc, hl], by rw [hs, hl]⟩
  · exact .inr (.inl ⟨hi, rfl, rfl⟩)
  · rw [nextInstr_of_transaction ht]
    rw [hl] at he
    obtain hk | ⟨v, hd, hv⟩ | ⟨v, hd, hv⟩ := exec_decodeBus_ctrl_scale he
    · exact .inl hk
    · exact .inr (.inr (.inl ⟨v, congrArg some hd, hv⟩))
    · exact .inr (.inr (.inr ⟨v, congrArg some hd, hv⟩))

/-! CAL is 1 only while K is non-zero (R17) -/

/-- A coefficient reads 0 as an integer only where its bits are 0. -/
theorem coeff_toInt_ne_zero (k : Coeff) : k.toInt ≠ 0 ↔ k ≠ 0 := not_congr (BitVec.toInt_inj (y := (0 : Coeff)))

/-- Every step keeps R17: WR CTRL tests K before it sets CAL, and WR SCALE clears CAL with a zero K. -/
theorem step_keeps_cal_coeff {s s' : State} (hs : s.ctrl.cal = true → s.scale.k ≠ 0) (h : step s = .next s') :
    s'.ctrl.cal = true → s'.scale.k ≠ 0 := by
  obtain ⟨hc, hk⟩ | ⟨-, hc, hk⟩ | ⟨v, -, hc, hk⟩ | ⟨v, -, hc, hk⟩ := step_ctrl_scale_cases h
  · rwa [hc, hk]
  · simp [hc]
  · simp [hc, hk]
  · simp [hc, hk]

/-- Settles O48: CAL is 0 at reset, and no writer of CTRL or SCALE leaves CAL at 1 over a zero K. -/
theorem calibratedImpliesNonzeroCoefficient : Obligations.CalibratedImpliesNonzeroCoefficient := by
  simp only [Obligations.CalibratedImpliesNonzeroCoefficient, coeff_toInt_ne_zero]
  exact ⟨by decide, fun _ _ hs h => step_keeps_cal_coeff hs h⟩

end Sys2Proof.Proofs
end

section
/-! PROOFS. What a read returns: the register words written out from their fields (R36). -/

namespace Sys2Proof.Proofs

open Sys2Proof Sys2Proof.Machine Sys2Proof.Laws

/-! Words put together from fields -/

/-- Appending is addition: the upper field counts `2 ^ w` times. -/
theorem toNat_append_eq_add {v w : Nat} (x : BitVec v) (y : BitVec w) :
    (x ++ y).toNat = 2 ^ w * x.toNat + y.toNat := by
  rw [BitVec.toNat_append, ← Nat.shiftLeft_add_eq_or_of_lt y.isLt, Nat.shiftLeft_eq, Nat.mul_comm]

/-- A word is given by its value. -/
theorem eq_ofNat_of_toNat {w n : Nat} {x : BitVec w} (h : x.toNat = n) : x = BitVec.ofNat w n := by
  rw [← h, BitVec.ofNat_toNat, BitVec.setWidth_eq]

/-! The STATUS bits that are functions of the phase (R19) -/

theorem busy_eq_decide (s : State) : busy s = decide (s.phase ≠ .idle) := by
  rw [Bool.eq_iff_iff, busy_iff, decide_eq_true_iff]

theorem waiting_eq_decide (s : State) : waiting s = decide (s.phase = .wait) := by
  rw [Bool.eq_iff_iff, waiting_iff, decide_eq_true_iff]

/-! The words that pack several fields -/

/-- CTRL packs GAIN, CAL and IE (R15). -/
theorem ctrlWord_eq (c : Ctrl) :
    ctrlWord c = BitVec.ofNat 32 ((gainBit c.gain).toNat + 2 * c.cal.toNat + 4 * c.ie.toNat) := by
  apply eq_ofNat_of_toNat
  simp only [ctrlWord, toNat_append_eq_add, BitVec.toNat_ofBool, BitVec.toNat_ofNat]
  omega

/-- STATUS packs the phase, the sticky flags and the gain bookkeeping (R19). -/
theorem statusWord_eq (s : State) :
    statusWord s = BitVec.ofNat 32
      ((decide (s.phase ≠ .idle)).toNat + 2 * (decide (s.phase = .wait)).toNat
        + 4 * s.flags.done.toNat + 8 * s.flags.uncal.toNat + 16 * s.flags.overrun.toNat
        + 32 * s.flags.illegal.toNat + 64 * s.flags.aborted.toNat + 128 * s.flags.sat.toNat
        + 256 * (gainBit s.book.pgain).toNat + 512 * s.book.pgainV.toNat
        + 1024 * (gainBit s.book.sgain).toNat + 2048 * s.book.sgainV.toNat) := by
  rw [← busy_eq_decide, ← waiting_eq_decide]
  apply eq_ofNat_of_toNat
  simp only [statusWord, toNat_append_eq_add, BitVec.toNat_ofBool, BitVec.toNat_ofNat]
  omega

/-- SCALE packs K and, above it, S (R21). -/
theorem scaleWord_eq (c : Scale) : scaleWord c = BitVec.ofNat 32 (65536 * c.s.toNat + c.k.toNat) := by
  apply eq_ofNat_of_toNat
  simp only [scaleWord, toNat_append_eq_add, BitVec.toNat_ofNat]
  omega

/-! The read -/

/-- A read hands the host the register's read value and leaves every other field of the state (R36). -/
theorem exec_rd (r : Reg) (s : State) : exec (.rd r) s = .next { s with rdata := readReg r s } := rfl

/-- Settles O11: every read is `exec_rd`, and each register's read value is its word written out. -/
theorem readReturnsRegisterValue : Obligations.ReadReturnsRegisterValue := by
  intro s
  refine ⟨?ctrl, exec_rd .cmd s, ?status, ?offset, ?scale, exec_rd .result s, exec_rd .lastGrams s, ?raw⟩
  case ctrl => rw [exec_rd, readReg, ctrlWord_eq]
  case status => rw [exec_rd, readReg, statusWord_eq]
  case offset => rw [exec_rd, readReg, BitVec.signExtend]
  case scale => rw [exec_rd, readReg, scaleWord_eq]
  case raw => rw [exec_rd, readReg, BitVec.ofNat_toNat]

end Sys2Proof.Proofs
end

section
/-! PROOFS. The two maps of the encoding chapter: the descriptors (R53), and the command words that select no command (R55). -/

namespace Sys2Proof.Proofs

open Sys2Proof Sys2Proof.Machine Sys2Proof.Laws

/-! The descriptor map -/

/-- The descriptor with WE = 0 and word index A reads register A, whatever the data word is (R49). -/
theorem decodeBus_read (r : Reg) (v : Word) : decodeBus ⟨descriptor false r, v⟩ = .rd r := by
  simp [decodeBus]

/-- The descriptor with WE = 1 and word index A writes the data word to register A (R49). -/
theorem decodeBus_write (r : Reg) (v : Word) : decodeBus ⟨descriptor true r, v⟩ = writeTo r v := by
  simp [decodeBus]

/-- Settles O3: the 16 descriptors are `{we, A}` for the two values of WE and the eight registers. -/
theorem descriptorMapAsTabled : Obligations.DescriptorMapAsTabled := fun v =>
  ⟨decodeBus_read .ctrl v, decodeBus_read .cmd v, decodeBus_read .status v, decodeBus_read .offset v,
    decodeBus_read .scale v, decodeBus_read .result v, decodeBus_read .lastGrams v, decodeBus_read .raw v,
    decodeBus_write .ctrl v, decodeBus_write .cmd v, decodeBus_write .status v, decodeBus_write .offset v,
    decodeBus_write .scale v, decodeBus_write .result v, decodeBus_write .lastGrams v, decodeBus_write .raw v⟩

/-! The reserved command words -/

/-- The decoder refuses exactly the words with OPC in 0x5 .. 0xE or RSV not 0 (R55). -/
theorem decodeCmd_error_iff (v : Word) :
    (∃ e, decodeCmd v = .error e) ↔ (5 ≤ v.toNat % 16 ∧ v.toNat % 16 ≤ 14) ∨ v.toNat / 16 ≠ 0 := by
  obtain ⟨rfl, hd⟩ | ⟨rfl, hd⟩ | ⟨rfl, hd⟩ | ⟨rfl, hd⟩ | ⟨rfl, hd⟩ | ⟨rfl, hd⟩ | ⟨hv, hd⟩ | ⟨hlo, hhi, hd⟩ :=
    decodeCmd_word v
  iterate 6 exact iff_of_false (by simp [hd]) (by decide)
  · exact iff_of_true ⟨_, hd⟩ (.inr (by omega))
  · exact iff_of_true ⟨_, hd⟩ (.inl (by omega))

/-- ABORT's word is a command, so a refused word is another one. -/
theorem ne_abort_of_decodeCmd_error {v : Word} {e : DecodeError} (h : decodeCmd v = .error e) : v ≠ 0x0000000F#32 := by
  rintro rfl
  exact absurd h (by cases e <;> decide)

/-- A refused word written in IDLE is handled as a reserved word (R110). -/
theorem exec_wrCmd_error_idle {s : State} {v : Word} {e : DecodeError} (hd : decodeCmd v = .error e)
    (hi : s.phase = .idle) : exec (.wrCmd v) s = .next (reservedWord s) := by
  simp [exec, execWrCmd, (busy_eq_false_iff s).mpr hi, issueWord, hd]

/-- Every word but ABORT's written while BUSY is dropped with OVERRUN (R117). -/
theorem exec_wrCmd_busy {s : State} {v : Word} (hb : s.phase ≠ .idle) (hv : v ≠ 0x0000000F#32) :
    exec (.wrCmd v) s = .next (raise .overrun s) := by
  simp [exec, execWrCmd, (busy_iff s).mpr hb, hv]

/-- Settles O5: the reserved words are those the decoder refuses, and a refused word is neither a command in IDLE nor ABORT
while BUSY. -/
theorem reservedWordsOnlyRaiseFlags : Obligations.ReservedWordsOnlyRaiseFlags := by
  refine ⟨decodeCmd_error_iff, fun s v hv => ?_⟩
  obtain ⟨e, hd⟩ := (decodeCmd_error_iff v).mpr hv
  exact ⟨exec_wrCmd_error_idle hd, fun hb => exec_wrCmd_busy hb (ne_abort_of_decodeCmd_error hd)⟩

end Sys2Proof.Proofs
end

section
/-! PROOFS. The SEQ agent of the bit reader (spec/40_bitreader.md): its frame (R70), the wait for a device that is never ready
(R61), and the edges and samples of the pulse train (R65). -/

namespace Sys2Proof.Proofs

open Sys2Proof Sys2Proof.Machine Sys2Proof.Laws

/-! What a turn writes (R70) -/

/-- Before the completion a turn writes the phase, the shift register, SCK and the device, and nothing else. -/
theorem seqStep_frame_of_ne_finish {s : State} (h : s.phase ≠ .finish) :
    seqStep s = { s with
      phase := (seqStep s).phase, shreg := (seqStep s).shreg, sck := (seqStep s).sck, dev := (seqStep s).dev } := by
  obtain hp | hp | ⟨k, hp⟩ | ⟨k, hp⟩ | hp := phase_cases s
  · rw [seqStep_idle hp]
  · obtain ⟨d, -, he⟩ := pollReady_spec s
    rw [seqStep_wait hp, he]
  · rw [seqStep_rise hp]; rfl
  · obtain ⟨d, -, he⟩ := lowerClock_spec k s
    rw [seqStep_fall hp, he]
  · exact absurd hp h

/-- Where a turn writes a field that no turn before the completion writes, the turn is the completion. -/
theorem finish_of_seqStep_ne {α : Type} (field : State → α)
    (hf : ∀ (s : State) p r b d, field { s with phase := p, shreg := r, sck := b, dev := d } = field s) {s : State}
    (h : field (seqStep s) ≠ field s) : s.phase = .finish := by
  by_contra hp
  rw [seqStep_frame_of_ne_finish hp, hf] at h
  exact h rfl

/-- OFFSET is written by the completion of a TARE alone. -/
theorem ofs_changes_only_by_tare {s : State} (h : (seqStep s).ofs ≠ s.ofs) : s.phase = .finish ∧ s.snap.op = .tare := by
  have hp := finish_of_seqStep_ne State.ofs (fun _ _ _ _ _ => rfl) h
  rw [seqStep_finish hp, complete_eq] at h
  exact ⟨hp, by_contra fun ho => h (if_neg ho)⟩

/-- RESULT is written by the completions of the other commands. -/
theorem result_kept_by_tare {s : State} (h : (seqStep s).result ≠ s.result) : s.phase = .finish ∧ s.snap.op ≠ .tare := by
  have hp := finish_of_seqStep_ne State.result (fun _ _ _ _ _ => rfl) h
  rw [seqStep_finish hp, complete_eq] at h
  exact ⟨hp, fun ho => h (by simp only [ho])⟩

/-- LAST_GRAMS is written by the completion of a MEASURE alone. -/
theorem lastGrams_changes_only_by_measure {s : State} (h : (seqStep s).lastGrams ≠ s.lastGrams) :
    s.phase = .finish ∧ s.snap.op = .measure := by
  have hp := finish_of_seqStep_ne State.lastGrams (fun _ _ _ _ _ => rfl) h
  rw [seqStep_finish hp, complete_eq] at h
  exact ⟨hp, by_contra fun ho => h (if_neg ho)⟩

/-- SAT is raised by the completion of a MEASURE alone. -/
theorem sat_changes_only_by_measure {s : State} (h : (seqStep s).flags.sat ≠ s.flags.sat) :
    s.phase = .finish ∧ s.snap.op = .measure := by
  have hp := finish_of_seqStep_ne (fun s => s.flags.sat) (fun _ _ _ _ _ => rfl) h
  rw [seqStep_finish hp, complete_eq] at h
  exact ⟨hp, by_contra fun ho => h (by simp [ho])⟩

/-- Settles O31: the frame before FINISH, the completion's equation at FINISH, and who writes each register. -/
theorem sequencerStepFrame : Obligations.SequencerStepFrame := by
  intro s
  obtain ⟨hctrl, hscale, hsnap, hrdata⟩ := seqStep_frame s
  refine ⟨hctrl, hscale, hsnap, hrdata, seqStep_inputs s, seqStep_frame_of_ne_finish, fun hp => ?_,
    ofs_changes_only_by_tare, result_kept_by_tare, lastGrams_changes_only_by_measure, sat_changes_only_by_measure⟩
  rw [seqStep_finish hp, complete_eq]

/-! A device that is never ready (R61) -/

/-- A poll that reads 1 takes that sample and does nothing else. -/
theorem seqStep_wait_not_ready {s : State} {rest : List Bool} (hp : s.phase = .wait)
    (hl : s.dev.levels = true :: rest) : seqStep s = { s with dev := { s.dev with levels := rest } } := by
  rw [seqStep_wait hp, pollReady, sampleDout_cons hl]

/-- Any number of polls that read 1 take those samples and do nothing else. -/
theorem seqSteps_wait_not_ready (n : Nat) {s : State} {rest : List Bool} (hp : s.phase = .wait)
    (hl : s.dev.levels = List.replicate n true ++ rest) :
    seqSteps n s = { s with dev := { s.dev with levels := rest } } := by
  induction n generalizing s with
  | zero =>
    obtain rfl : s.dev.levels = rest := hl
    rfl
  | succ n ih =>
    rw [seqSteps, seqStep_wait_not_ready (rest := List.replicate n true ++ rest) hp hl]
    exact ih hp rfl

/-- ABORT in WAIT ends the command with ABORTED and DONE (R109). -/
theorem exec_abort_wait {s : State} (hp : s.phase = .wait) :
    exec .abort s = .next { s with phase := .idle, flags := { s.flags with aborted := true, done := true } } := by
  simp only [exec, execAbort, abortCommand, abortBusy, hp]
  rfl

/-- Settles O32: by induction on the number of polls that read 1, and by ABORT in WAIT. -/
theorem deviceNeverReadyHangsInWait : Obligations.DeviceNeverReadyHangsInWait := by
  intro n s rest later hp hi hl
  refine ⟨?_, exec_abort_wait hp⟩
  rw [run_seq_inputs n s later hi]
  exact congrArg Host.Outcome.next (seqSteps_wait_not_ready n (s := { s with inputs := later }) hp hl)

/-! The pulse train (R65) -/

/-- The first turn of a pulse drives SCK high (R62). -/
theorem seqStep_pulse_high {k : Nat} {s : State} (hp : s.phase = .rise k) :
    seqStep s = { s with phase := .fall k, sck := true } := seqStep_rise hp

/-- The two turns of a pulse end with SCK low, in the phase after the pulse, under the same snapshot (R62, R63). -/
theorem seqStep_pulse {k : Nat} {s : State} (hp : s.phase = .rise k) :
    (seqStep (seqStep s)).phase = afterPulse k s.snap.gain ∧ (seqStep (seqStep s)).sck = false
      ∧ (seqStep (seqStep s)).snap = s.snap := by
  rw [seqStep_pulse_high hp, seqStep_fall rfl]
  obtain ⟨d, -, he⟩ := lowerClock_spec k { s with phase := .fall k, sck := true }
  rw [he]
  exact ⟨rfl, rfl, rfl⟩

/-- A pulse has one rising edge: SCK goes from low to high in its first turn and falls in its second. -/
theorem risingEdges_pulse {k : Nat} {s : State} (hp : s.phase = .rise k) (hs : s.sck = false) (m : Nat) :
    risingEdges (2 * (m + 1)) s = 1 + risingEdges (2 * m) (seqStep (seqStep s)) := by
  have hh : (seqStep s).sck = true := by rw [seqStep_pulse_high hp]
  simp [Nat.mul_succ, risingEdges, hs, hh]

/-- A data pulse takes one sample, in its second turn, and a gain pulse none. -/
theorem samples_pulse {k : Nat} {s : State} (hp : s.phase = .rise k) (m : Nat) :
    samples (2 * (m + 1)) s = (if k < Config.dataClocks then 1 else 0) + samples (2 * m) (seqStep (seqStep s)) := by
  have hh : (seqStep s).phase = .fall k := by rw [seqStep_pulse_high hp]
  simp [Nat.mul_succ, samples, hp, hh]

/-- With `m` pulses to come, the first of them pulse `k`: one rising edge a pulse, one sample a data pulse, and FINISH after the
last. -/
theorem pulseTrain_from (m : Nat) {k : Nat} {s : State} (hm : k + m = totalPulses s.snap.gain) (hs : s.sck = false)
    (hp : s.phase = if k < totalPulses s.snap.gain then .rise k else .finish) :
    risingEdges (2 * m) s = m ∧ samples (2 * m) s = Config.dataClocks - k ∧ (seqSteps (2 * m) s).phase = .finish := by
  induction m generalizing k s with
  | zero =>
    have hk : Config.dataClocks ≤ k := by rw [Nat.add_zero] at hm; rw [hm]; exact Nat.le_add_right _ _
    exact ⟨rfl, (Nat.sub_eq_zero_of_le hk).symm, hp.trans (if_neg (by omega))⟩
  | succ m ih =>
    rw [if_pos (by omega)] at hp
    obtain ⟨hphase, hsck, hsnap⟩ := seqStep_pulse hp
    rw [← hsnap] at hm hphase
    obtain ⟨hedges, hsamples, hend⟩ := ih (k := k + 1) (by omega) hsck hphase
    refine ⟨by rw [risingEdges_pulse hp hs, hedges, Nat.add_comm], ?_, hend⟩
    rw [samples_pulse hp, hsamples]
    split <;> omega

/-- Settles O33: the 25 or 27 pulses from RISE(0), and the hold that the two phases of every pulse share. -/
theorem pulseTrainEdgeCount : Obligations.PulseTrainEdgeCount := by
  refine ⟨fun s n hp hs hn => ?_, fun _ _ => ⟨rfl, rfl, rfl⟩⟩
  have hm : n = totalPulses s.snap.gain := by rw [hn]; cases s.snap.gain <;> rfl
  have hpos := totalPulses_bounds s.snap.gain
  exact pulseTrain_from n (by rw [hm, Nat.zero_add]) hs (by rw [hp, if_pos (by omega)])

end Sys2Proof.Proofs
end

section
/-! PROOFS. The value of a sample (spec/40_bitreader.md R68). -/

namespace Sys2Proof.Proofs

open Sys2Proof Sys2Proof.Machine Sys2Proof.Laws

/-- A byte of a sample as its value is divided. -/
theorem toNat_byte (x : Raw24) (i : Nat) : (x.extractLsb' i 8).toNat = x.toNat / 2 ^ i % 256 := by
  rw [BitVec.extractLsb'_toNat, Nat.shiftRight_eq_div_pow]

/-- The top bit of a byte is 1 from 128 on. -/
theorem byte_top_bit (b : Byte) : b.getLsbD 7 = true ↔ 128 ≤ b.toNat := by
  rw [← BitVec.msb_eq_getLsbD_last (x := b), BitVec.msb_eq_decide, decide_eq_true_iff]

/-- The value of a sample, by its top bit (R9). -/
theorem sampleOf_eq (x : Raw24) : sampleOf x = (x.toNat : Int) - (if 8388608 ≤ x.toNat then 16777216 else 0) := by
  rw [sampleOf, BitVec.toInt_eq_toNat_cond]
  split <;> split <;> omega

/-- The value range of a sample (R68). -/
theorem sampleOf_bounds (x : Raw24) : -8388608 ≤ sampleOf x ∧ sampleOf x ≤ 8388607 := by
  have := x.isLt
  rw [sampleOf_eq]
  split <;> omega

/-- An integer in the 32-bit range is stored in 32 bits without loss. -/
theorem toInt_bits32 {i : Int} (hlo : -2147483648 ≤ i) (hhi : i ≤ 2147483647) : (bits32 i).toInt = i := by
  rw [bits32, BitVec.toInt_ofInt]
  exact Int.bmod_eq_of_le (by omega) (by omega)

/-- Settles O35: the value by the three bytes, its sign and its range, and the lossless store. -/
theorem sampleIsSignExtendedBytes : Obligations.SampleIsSignExtendedBytes := by
  intro x
  obtain ⟨hlo, hhi⟩ := sampleOf_bounds x
  have hx := x.isLt
  refine ⟨?value, ?sign, hlo, hhi, toInt_bits32 (by omega) (by omega)⟩
  case value =>
    rw [sampleOf_eq]
    simp only [toNat_byte]
    split <;> split <;> omega
  case sign =>
    rw [byte_top_bit, toNat_byte, sampleOf_eq]
    split <;> omega

end Sys2Proof.Proofs
end

section
/-! PROOFS. The pulse train is out of the host's reach (spec/40_bitreader.md R66). -/

namespace Sys2Proof.Proofs

open Sys2Proof Sys2Proof.Machine Sys2Proof.Laws

/-- A pulse train is a command in progress. -/
theorem ne_idle_of_clocking {s : State} (h : clocking s.phase = true) : s.phase ≠ .idle := by
  intro hp
  rw [hp] at h
  cases h

/-- ABORT in the pulse train is ignored (R109). -/
theorem exec_wrCmd_abort_clocking {s : State} (h : clocking s.phase = true) :
    exec (.wrCmd 0x0000000F#32) s = .next s := by
  have he : exec (.wrCmd 0x0000000F#32) s = .next (abortBusy s) := by
    simp [exec, execWrCmd, (busy_iff s).mpr (ne_idle_of_clocking h)]
  obtain hp | ⟨k, hp | hp⟩ := (clocking_iff s.phase).mp h
  all_goals rw [he, abortBusy, hp]

/-- A transaction in the pulse train reaches nothing the sequencer reads or writes of its own: a register write reaches a host
register or the flags, and a command word at most OVERRUN. -/
theorem exec_decodeBus_keeps_seqView {s u : State} {t : Transaction} (h : clocking s.phase = true)
    (he : exec (decodeBus t) s = .next u) : seqView u = seqView s := by
  obtain ⟨r, hd⟩ | ⟨v, hd⟩ | ⟨v, hd⟩ | ⟨v, hd⟩ | ⟨v, hd⟩ | ⟨v, hd⟩ | ⟨v, hd⟩ | ⟨v, hd⟩ | ⟨v, hd⟩ := decodeBus_cases t
  case inr.inr.inl =>
    rw [hd] at he
    by_cases hv : v = 0x0000000F#32
    · rw [hv, exec_wrCmd_abort_clocking h] at he
      cases he; rfl
    · rw [exec_wrCmd_busy (ne_idle_of_clocking h) hv] at he
      cases he; rfl
  all_goals
    rw [hd] at he
    cases he; rfl

/-- No turn but a completion brings the block to IDLE. -/
theorem finish_of_seqStep_idle {s : State} (h : s.phase ≠ .idle) (he : (seqStep s).phase = .idle) : s.phase = .finish := by
  obtain hp | hp | ⟨k, hp⟩ | ⟨k, hp⟩ | hp := phase_cases s
  · exact absurd hp h
  · obtain ⟨d, -, hw⟩ := pollReady_spec s
    rw [seqStep_wait hp, hw, hp] at he
    cases hb : (sampleDout s).1 <;> simp [hb] at he
  · rw [seqStep_rise hp] at he
    cases he
  · obtain ⟨d, -, hl⟩ := lowerClock_spec k s
    rw [seqStep_fall hp, hl] at he
    simp only [afterPulse] at he
    split at he <;> cases he
  · exact hp

/-- A step from the pulse train to IDLE is the completion or a reset. -/
theorem step_clocking_to_idle {s s' : State} (h : clocking s.phase = true) (hs : step s = .next s')
    (hi : s'.phase = .idle) : (s.phase = .finish ∧ (nextInput s).1 = .seq) ∨ (nextInput s).1 = .rst := by
  obtain ⟨l, hl⟩ := nextInput_rest s
  obtain ⟨hx, rfl⟩ | ⟨hx, -⟩ | ⟨t, -, he⟩ := step_cases hs
  · rw [hl] at hi
    exact .inl ⟨finish_of_seqStep_idle (s := { s with inputs := l }) (ne_idle_of_clocking h) hi, hx⟩
  · exact .inr hx
  · rw [hl] at he
    have hv := exec_decodeBus_keeps_seqView (s := { s with inputs := l }) h he
    have hp : s'.phase = s.phase := congrArg SeqView.phase hv
    exact absurd (hp.symm.trans hi) (ne_idle_of_clocking h)

/-- Settles O44: command words by ABORT and OVERRUN, register writes and all transactions by the sequencer's view, and the ways
to IDLE by the step's cases. -/
theorem pulseTrainCannotBeInterrupted : Obligations.PulseTrainCannotBeInterrupted := fun _ h =>
  ⟨exec_wrCmd_abort_clocking h, fun _ hv => exec_wrCmd_busy (ne_idle_of_clocking h) hv,
    fun _ => ⟨_, rfl, rfl, rfl⟩, fun _ => ⟨_, rfl, rfl, rfl⟩, fun _ => ⟨_, rfl, rfl, rfl⟩,
    fun _ _ => exec_decodeBus_keeps_seqView h, fun _ => step_clocking_to_idle h⟩

end Sys2Proof.Proofs
end

section
/-! PROOFS. What the host's writes to CTRL, OFFSET and SCALE do (R74, R77, R78): the operand fields of the written word
(R52) by its value, then the three writes. -/

namespace Sys2Proof.Proofs

open Sys2Proof Sys2Proof.Machine Sys2Proof.Laws

/-! The operand fields (R52) -/

/-- Bit `i` of a word as its value is divided. -/
theorem getLsbD_eq_decide (v : Word) (i : Nat) : v.getLsbD i = decide (v.toNat / 2 ^ i % 2 = 1) :=
  Nat.testBit_eq_decide_div_mod_eq

/-- A field of `n` bits from bit `i` on, as the word's value is divided. -/
theorem extractLsb'_eq_ofNat (v : Word) (i n : Nat) : v.extractLsb' i n = BitVec.ofNat n (v.toNat / 2 ^ i % 2 ^ n) := by
  apply eq_ofNat_of_toNat
  rw [BitVec.extractLsb'_toNat, Nat.shiftRight_eq_div_pow]

theorem gainField_eq (v : Word) : gainField v = if v.toNat % 2 = 1 then .low else .high := by
  rw [gainField, getLsbD_eq_decide, Nat.pow_zero, Nat.div_one]
  by_cases h : v.toNat % 2 = 1 <;> simp [h, gainOfBit]

theorem calField_eq (v : Word) : calField v = decide (v.toNat / 2 % 2 = 1) := getLsbD_eq_decide v 1

theorem ieField_eq (v : Word) : ieField v = decide (v.toNat / 4 % 2 = 1) := getLsbD_eq_decide v 2

theorem ofsField_eq (v : Word) : ofsField v = BitVec.ofNat 24 (v.toNat % 16777216) := by
  simp only [ofsField, extractLsb'_eq_ofNat, Nat.pow_zero, Nat.div_one, Nat.reducePow]

theorem kField_eq (v : Word) : kField v = BitVec.ofNat 16 (v.toNat % 65536) := by
  simp only [kField, extractLsb'_eq_ofNat, Nat.pow_zero, Nat.div_one, Nat.reducePow]

theorem sField_eq (v : Word) : sField v = BitVec.ofNat 5 (v.toNat / 65536 % 32) := extractLsb'_eq_ofNat v 16 5

/-- The K operand is 0 where the low 16 bits of the word are. -/
theorem kField_eq_zero_iff (v : Word) : kField v = 0 ↔ v.toNat % 65536 = 0 := by
  rw [kField_eq, ← BitVec.toNat_inj, BitVec.toNat_ofNat, Nat.mod_mod]
  rfl

/-! CAL after a write (R17) -/

/-- WR CTRL sets CAL where the word requests it over a coefficient that is not 0 (R74). -/
theorem requestedCal_eq (v : Word) (k : Coeff) :
    (calField v && k != 0) = decide (v.toNat / 2 % 2 = 1 ∧ k.toInt ≠ 0) := by
  simp only [calField_eq, coeff_toInt_ne_zero, Bool.decide_and, decide_not, bne, beq_eq_decide]

/-- WR SCALE clears CAL where the new coefficient is 0, and keeps it otherwise (R78). -/
theorem keptCal_eq (v : Word) (c : Bool) : (c && kField v != 0) = if v.toNat % 65536 = 0 then false else c := by
  by_cases h : v.toNat % 65536 = 0
  · rw [if_pos h, (kField_eq_zero_iff v).mpr h, bne_self_eq_false, Bool.and_false]
  · rw [if_neg h, bne_iff_ne.mpr (mt (kField_eq_zero_iff v).mp h), Bool.and_true]

/-! The three writes -/

theorem exec_wrCtrl (v : Word) (s : State) : exec (.wrCtrl v) s = .next { s with ctrl :=
    ⟨if v.toNat % 2 = 1 then .low else .high, decide (v.toNat / 2 % 2 = 1 ∧ s.scale.k.toInt ≠ 0),
      decide (v.toNat / 4 % 2 = 1)⟩ } := by
  rw [exec, execWrCtrl, gainField_eq, requestedCal_eq, ieField_eq]

theorem exec_wrOffset (v : Word) (s : State) :
    exec (.wrOffset v) s = .next { s with ofs := BitVec.ofNat 24 (v.toNat % 16777216) } := by
  rw [exec, execWrOffset, ofsField_eq]

theorem exec_wrScale (v : Word) (s : State) : exec (.wrScale v) s = .next { s with
    scale := ⟨BitVec.ofNat 16 (v.toNat % 65536), BitVec.ofNat 5 (v.toNat / 65536 % 32)⟩
    ctrl := { s.ctrl with cal := if v.toNat % 65536 = 0 then false else s.ctrl.cal } } := by
  rw [exec, execWrScale, keptCal_eq, kField_eq, sField_eq]

/-- OFFSET reads as the value of OFS (R20). -/
theorem toInt_readReg_offset (s : State) : (readReg .offset s).toInt = sampleOf s.ofs :=
  BitVec.toInt_signExtend_of_le (by decide)

/-- Settles O12: the write by its fields; `irq` reads the new IE (R120). -/
theorem writeCtrlSetsGainCalIe : Obligations.WriteCtrlSetsGainCalIe := fun s v =>
  ⟨decodeBus_write .ctrl v, _, exec_wrCtrl v s, rfl, rfl⟩

/-- Settles O13: the write by its field; the read value is the signed value of the 24 bits kept. -/
theorem writeOffsetKeepsLow24Bits : Obligations.WriteOffsetKeepsLow24Bits := by
  refine fun s v => ⟨decodeBus_write .offset v, _, exec_wrOffset v s, rfl, ?_⟩
  rw [toInt_readReg_offset, sampleOf_eq, BitVec.toNat_ofNat, Nat.mod_mod]
  split <;> split <;> omega

/-- Settles O14: the write by its fields. -/
theorem writeScaleClearsCalOnZero : Obligations.WriteScaleClearsCalOnZero := fun s v =>
  ⟨decodeBus_write .scale v, exec_wrScale v s⟩

end Sys2Proof.Proofs
end

section
/-! PROOFS. The weight pipeline (spec/42_weight_pipeline.md): the sizes of the product and the accumulator (R85), rounding
(R87), saturation (R88), and the two ways MEASURE ends, uncalibrated (R84) and as the only writer of LAST_GRAMS (R89). -/

namespace Sys2Proof.Proofs

open Sys2Proof Sys2Proof.Machine Sys2Proof.Laws

/-! The sizes of the terms (R85) -/

/-- The difference of two samples fits 25 signed bits. -/
theorem abs_difference_le (x : Raw24) (p : Snapshot) : |difference x p| ≤ 16777215 := by
  have hx := sampleOf_bounds x
  have ho := sampleOf_bounds p.ofs
  rw [abs_le, difference]
  omega

/-- A coefficient is at most 2^15 in magnitude. -/
theorem abs_coeff_le (k : Coeff) : |k.toInt| ≤ 32768 := by
  have hlo := BitVec.le_toInt k
  have hhi := BitVec.toInt_lt (x := k)
  rw [abs_le]
  omega

/-- The largest product is that of the largest difference and the coefficient -32768. -/
theorem abs_product_le (x : Raw24) (p : Snapshot) : |difference x p * p.k.toInt| ≤ 549755781120 :=
  calc |difference x p * p.k.toInt| = |difference x p| * |p.k.toInt| := abs_mul ..
    _ ≤ 16777215 * 32768 := mul_le_mul (abs_difference_le x p) (abs_coeff_le p.k) (abs_nonneg _) (by decide)

/-- Without a shift there is nothing to round. -/
theorem roundTerm_of_shift_zero {s : Shift} (h : s.toNat = 0) : roundTerm s = 0 :=
  if_pos (BitVec.eq_of_toNat_eq h)

/-- The rounding term is half of the divisor. -/
theorem two_mul_roundTerm {s : Shift} (h : 0 < s.toNat) : 2 * roundTerm s = 2 ^ s.toNat := by
  have hs : s ≠ 0 := fun h0 => by simp [h0] at h
  rw [roundTerm, if_neg hs, Nat.cast_pow, Nat.cast_ofNat, mul_pow_sub_one h.ne']

/-- A shift count has five bits. -/
theorem shift_le (s : Shift) : s.toNat ≤ 31 := Nat.le_of_lt_succ s.isLt

/-- The rounding term is not negative and at most half of the largest divisor. -/
theorem roundTerm_bounds (s : Shift) : 0 ≤ roundTerm s ∧ roundTerm s ≤ 2 ^ 30 := by
  obtain h | h := Nat.eq_zero_or_pos s.toNat
  · rw [roundTerm_of_shift_zero h]
    decide
  · have hr := two_mul_roundTerm h
    have hpos : (0 : Int) < 2 ^ s.toNat := by positivity
    have hle : (2 : Int) ^ s.toNat ≤ 2 ^ 31 := pow_le_pow_right₀ (by decide) (shift_le s)
    omega

/-- Settles O37: the accumulator is the product and the rounding term, and their bounds leave room below 2^40. -/
theorem accumulatorFits41Bits : Obligations.AccumulatorFits41Bits := by
  intro x p
  have hp := abs_product_le x p
  have hr := roundTerm_bounds p.s
  refine ⟨hp, hr.1, hr.2, ?_⟩
  rw [abs_le] at hp
  rw [accumulator]
  omega

/-! Rounding (R87) -/

/-- The weight is the floor of the accumulator over the divisor. -/
theorem weight_eq_iff (x : Raw24) (p : Snapshot) (w : Int) :
    weight x p = w ↔ w * 2 ^ p.s.toNat ≤ accumulator x p ∧ accumulator x p < (w + 1) * 2 ^ p.s.toNat := by
  have hpos : (0 : Int) < 2 ^ p.s.toNat := by positivity
  rw [weight, shiftRightA, Nat.cast_pow, Nat.cast_ofNat, ← Int.le_ediv_iff_mul_le hpos, ← Int.ediv_lt_iff_lt_mul hpos]
  omega

/-- Adding half of the divisor before the floor rounds to the nearest integer, and a tie up. -/
theorem weight_eq_iff_nearest {p : Snapshot} (h : 0 < p.s.toNat) (x : Raw24) (w : Int) :
    weight x p = w ↔ (2 * w - 1) * 2 ^ p.s.toNat ≤ 2 * (difference x p * p.k.toInt)
      ∧ 2 * (difference x p * p.k.toInt) < (2 * w + 1) * 2 ^ p.s.toNat := by
  have hr := two_mul_roundTerm h
  have hlo : 2 * (w * 2 ^ p.s.toNat) = (2 * w - 1) * 2 ^ p.s.toNat + 2 * roundTerm p.s := by rw [hr]; ring
  have hhi : 2 * ((w + 1) * 2 ^ p.s.toNat) = (2 * w + 1) * 2 ^ p.s.toNat + 2 * roundTerm p.s := by rw [hr]; ring
  rw [weight_eq_iff, accumulator]
  omega

/-- Without a shift the weight is the product. -/
theorem weight_of_shift_zero {p : Snapshot} (h : p.s.toNat = 0) (x : Raw24) :
    weight x p = difference x p * p.k.toInt := by
  simp [weight_eq_iff, accumulator, roundTerm_of_shift_zero h, h]

/-- Settles O38: the two cases of the shift, and the largest one. -/
theorem weightRoundsHalfUp : Obligations.WeightRoundsHalfUp := fun x p =>
  ⟨fun h => weight_eq_iff_nearest h x, fun h => weight_of_shift_zero h x, shift_le p.s⟩

/-! Saturation (R88) -/

theorem sat32_of_gt {w : Int} (h : 2147483647 < w) : sat32 w = 2147483647 := by
  rw [sat32]
  omega

theorem sat32_of_lt {w : Int} (h : w < -2147483648) : sat32 w = -2147483648 := by
  rw [sat32]
  omega

/-- Exactly the integers of the 32-bit range are kept. -/
theorem sat32_eq_self_iff (w : Int) : sat32 w = w ↔ -2147483648 ≤ w ∧ w ≤ 2147483647 := by
  rw [sat32]
  omega

/-- A divisor of 256 or more brings the nearest integer to every quotient into the 32-bit range. -/
theorem abs_weight_le_of_shift_ge_eight {p : Snapshot} (h : 8 ≤ p.s.toNat) (x : Raw24) : |weight x p| ≤ 2147483647 := by
  obtain ⟨hlo, hhi⟩ := (weight_eq_iff_nearest (by omega) x (weight x p)).mp rfl
  have hp := abs_le.mp (abs_product_le x p)
  have hd : (2 : Int) ^ 8 ≤ 2 ^ p.s.toNat := pow_le_pow_right₀ (by decide) h
  rw [abs_le]
  constructor <;> by_contra hw
  · have := mul_le_mul_of_nonpos_left hd (show 2 * weight x p + 1 ≤ 0 by omega)
    omega
  · have := mul_le_mul_of_nonneg_left hd (show 0 ≤ 2 * weight x p - 1 by omega)
    omega

/-- The operands of the largest product, with shift count `n`. -/
def largestProduct (n : Nat) : Snapshot := ⟨.measure, .high, true, 0x7FFFFF#24, 0x8000#16, BitVec.ofNat 5 n⟩

/-- Each shift count below 8 leaves the largest product out of range. -/
theorem weight_largestProduct : ∀ n < 8, (largestProduct n).s.toNat = n ∧ (largestProduct n).k ≠ 0
    ∧ 2147483647 < weight 0x800000#24 (largestProduct n) := by
  decide

/-- SAT after the completion of a MEASURE. -/
theorem seqStep_sat_of_measure {s : State} (hp : s.phase = .finish) (ho : s.snap.op = .measure) :
    (seqStep s).flags.sat = (s.flags.sat
      || decide (weight s.shreg s.snap < -2147483648 ∨ 2147483647 < weight s.shreg s.snap)) := by
  have hw : weightSat s.shreg s.snap ≠ weight s.shreg s.snap ↔
      weight s.shreg s.snap < -2147483648 ∨ 2147483647 < weight s.shreg s.snap := by
    rw [weightSat, Ne, sat32_eq_self_iff]
    omega
  rw [seqStep_finish hp, complete_eq]
  simp only [ho, true_and, hw]

/-- Settles O39: the clamp by where the weight lies, its range by the shift count, and SAT at the completion. -/
theorem saturationOnlyBelowShiftEight : Obligations.SaturationOnlyBelowShiftEight := by
  refine ⟨fun x p => ⟨fun h => ?above, fun h => ?below, fun hlo hhi => ?inside,
    fun h => abs_weight_le_of_shift_ge_eight h x⟩, fun n hn => ⟨_, _, weight_largestProduct n hn⟩,
    fun s => seqStep_sat_of_measure⟩
  case above => rw [weightSat, sat32_of_gt h]; rfl
  case below => rw [weightSat, sat32_of_lt h]; rfl
  case inside => rw [weightSat, (sat32_eq_self_iff _).mpr ⟨hlo, hhi⟩, toInt_bits32 hlo hhi]

/-! LAST_GRAMS (R89) -/

/-- No transaction writes LAST_GRAMS: a command only issues, and WR LAST_GRAMS is ignored (R112). -/
theorem exec_decodeBus_lastGrams {t : Transaction} {s s' : State} (h : exec (decodeBus t) s = .next s') :
    s'.lastGrams = s.lastGrams := by
  obtain ⟨r, hd⟩ | ⟨v, hd⟩ | ⟨v, hd⟩ | ⟨v, hd⟩ | ⟨v, hd⟩ | ⟨v, hd⟩ | ⟨v, hd⟩ | ⟨v, hd⟩ | ⟨v, hd⟩ := decodeBus_cases t
  all_goals rw [hd] at h
  case inr.inr.inl =>
    obtain ⟨-, -, he⟩ | ⟨-, op, -, he⟩ | ⟨-, -, -, he⟩ | ⟨-, -, -, he⟩ | ⟨-, -, he⟩ | ⟨-, -, he⟩ | ⟨-, -, he⟩ | ⟨-, -, he⟩ :=
      execWrCmd_spec v s
    all_goals
      cases he.symm.trans h
      rfl
  all_goals
    cases h
    rfl

/-- The completion of a MEASURE writes LAST_GRAMS and RESULT alike. -/
theorem seqStep_lastGrams_of_measure {s : State} (hp : s.phase = .finish) (ho : s.snap.op = .measure) :
    (seqStep s).lastGrams = (seqStep s).result := by
  rw [seqStep_finish hp, complete_eq]
  simp only [ho, if_true]

/-- Settles O49: of the three things a step can do, only a turn of the SEQ agent is left, and that turn completes a MEASURE. -/
theorem lastGramsOnlyByMeasure : Obligations.LastGramsOnlyByMeasure := by
  intro s s' h hr hne
  obtain ⟨l, hl⟩ := nextInput_rest s
  obtain ⟨hi, rfl⟩ | ⟨hi, -⟩ | ⟨t, -, he⟩ := step_cases h
  · rw [hl] at hne ⊢
    obtain ⟨hp, ho⟩ := lastGrams_changes_only_by_measure (s := { s with inputs := l }) hne
    exact ⟨hi, hp, ho, seqStep_lastGrams_of_measure hp ho⟩
  · exact absurd hi hr
  · rw [hl] at he
    exact absurd (exec_decodeBus_lastGrams he) hne

/-! MEASURE without a calibration (R84) -/

/-- Settles O24: in IDLE the command is issued, and the snapshot's CAL of 0 ends it there. -/
theorem uncalibratedMeasureReturnsZero : Obligations.UncalibratedMeasureReturnsZero := by
  intro s hp hc
  rw [exec, execMeasure, unlessBusy_idle issueMeasure hp]
  simp only [issueMeasure, takeSnapshot, hc, Bool.false_eq_true, if_false, raise, Sticky.set]

end Sys2Proof.Proofs
end

section
/-! PROOFS. The reference calibration program (spec/43_calibration_procedure.md): what a host turn shows of one line, and the
countdown (R97). -/

namespace Sys2Proof.Proofs

open Sys2Proof Sys2Proof.Machine Sys2Proof.Laws

/-! No transaction of the host stops the program -/

/-- A write to CMD is answered whatever the word and the phase. -/
theorem execWrCmd_answers (v : Word) (s : State) : ∃ b, execWrCmd v s = .next b := by
  obtain ⟨-, -, he⟩ | ⟨-, op, -, he⟩ | ⟨-, -, -, he⟩ | ⟨-, -, -, he⟩ | ⟨-, -, he⟩ | ⟨-, -, he⟩ | ⟨-, -, he⟩ | ⟨-, -, he⟩ :=
    execWrCmd_spec v s
  all_goals exact ⟨_, he⟩

/-- Every write of the host is answered. -/
theorem exec_writeTo_answers (r : Reg) (v : Word) (s : State) : ∃ b, exec (writeTo r v) s = .next b := by
  cases r
  case cmd => exact execWrCmd_answers v s
  all_goals exact ⟨_, rfl⟩

/-! One line of a host program -/

/-- Whether the host always goes on from this line with the next one (R57). -/
def goesOn : Line → Bool
  | .jumpIf _ _ | .jump _ => false
  | .read _ _ | .write _ _ | .send _ | .waitPeriod _ => true

/-- What the line adds to the host's log. -/
def lineActs : Line → List HostAct
  | .send r => [.sent r]
  | .waitPeriod ms => [.waited ms]
  | .read _ _ | .write _ _ | .jumpIf _ _ | .jump _ => []

@[simp] theorem jump_log (d : Int) (h : HostState) : (h.jump d).log = h.log := rfl

@[simp] theorem jump_one_pc (h : HostState) : (h.jump 1).pc = h.pc + 1 := by
  simp only [HostState.jump]
  omega

@[simp] theorem record_log (a : HostAct) (h : HostState) : (h.record a).log = a :: h.log := rfl

@[simp] theorem record_pc (a : HostAct) (h : HostState) : (h.record a).pc = h.pc + 1 := jump_one_pc _

@[simp] theorem assign_log (v : HostVar) (w : Word) (h : HostState) : (h.assign v w).log = h.log := by
  cases v <;> rfl

@[simp] theorem assign_pc (v : HostVar) (w : Word) (h : HostState) : (h.assign v w).pc = h.pc := by
  cases v <;> rfl

/-- A read hands its word to a host variable and goes on. -/
theorem line_read_host (v : HostVar) (r : Reg) (σ : System) :
    (σ.line (.read v r)).host = (σ.host.assign v (readReg r σ.block)).jump 1 := by
  simp only [System.line, System.transact, exec_rd]

/-- A write goes on and moves nothing else of the host. -/
theorem line_write_host (r : Reg) (e : HostExpr) (σ : System) : (σ.line (.write r e)).host = σ.host.jump 1 := by
  obtain ⟨b, hb⟩ := exec_writeTo_answers r (σ.host.value e) σ.block
  simp only [System.line, System.transact, hb]

/-- Every line records its own acts, whatever the block. -/
theorem line_log (l : Line) (σ : System) : (σ.line l).host.log = (lineActs l).reverse ++ σ.host.log := by
  cases l with
  | read v r => simp [line_read_host, lineActs]
  | write r e => simp [line_write_host, lineActs]
  | jumpIf c d => cases hc : σ.host.holds c <;> simp [System.line, lineActs, hc]
  | jump d => rfl
  | send r => rfl
  | waitPeriod ms => rfl

/-- A line that is no jump leads to the next line, whatever the block. -/
theorem line_pc_of_goesOn {l : Line} (h : goesOn l = true) (σ : System) : (σ.line l).host.pc = σ.host.pc + 1 := by
  cases l with
  | read v r => simp [line_read_host]
  | write r e => simp [line_write_host]
  | jumpIf c d => cases h
  | jump d => cases h
  | send r => exact record_pc _ _
  | waitPeriod ms => exact record_pc _ _

/-! A stretch without jumps -/

/-- A host turn performs the line the host is at. -/
theorem turn_host {prog : List Line} {l : Line} {σ : System} (h : prog[σ.host.pc]? = some l) :
    σ.turn prog .host = σ.line l := by
  simp only [System.turn, h]

/-- Host turns through a stretch of lines without a jump record the acts of those lines in their order. -/
theorem run_log_of_goesOn {prog body : List Line} (hgo : ∀ l ∈ body, goesOn l = true) {σ : System}
    (hb : body <+: prog.drop σ.host.pc) :
    (System.run prog (List.replicate body.length .host) σ).host.log.reverse
      = σ.host.log.reverse ++ body.flatMap lineActs := by
  induction body generalizing σ with
  | nil => exact (List.append_nil _).symm
  | cons l ls ih =>
    obtain ⟨rest, hrest⟩ := hb
    have hl : prog[σ.host.pc]? = some l := by
      rw [← List.head?_drop, ← hrest]
      rfl
    have hnext : ls <+: prog.drop (σ.line l).host.pc := by
      rw [line_pc_of_goesOn (hgo l (by simp)), ← List.tail_drop, ← hrest]
      exact List.prefix_append ls rest
    calc (System.run prog (List.replicate (l :: ls).length .host) σ).host.log.reverse
        = (System.run prog (List.replicate ls.length .host) (σ.line l)).host.log.reverse := by
          rw [← turn_host hl]
          rfl
      _ = (σ.line l).host.log.reverse ++ ls.flatMap lineActs := ih (fun m hm => hgo m (by simp [hm])) hnext
      _ = σ.host.log.reverse ++ (l :: ls).flatMap lineActs := by simp [line_log]

/-! The countdown (R97) -/

/-- `calibrate()` begins with steps 1 and 2, whatever F. -/
theorem announce_countdown_prefix (f : Nat) : announce ++ countdown <+: calibrate f := by
  simp [calibrate]

/-- Steps 1 and 2 hold no jump. -/
theorem announce_countdown_goesOn : ∀ l ∈ announce ++ countdown, goesOn l = true := by
  decide

/-- Steps 1 and 2 are fifteen lines. -/
theorem announce_countdown_length : (announce ++ countdown).length = 15 := rfl

/-- Settles O56: the fifteen lines of steps 1 and 2 hold no jump, so their acts are recorded in the order of the text. -/
theorem countdownMessagesInOrder : Obligations.CountdownMessagesInOrder := by
  intro f s
  rw [← announce_countdown_length, run_log_of_goesOn announce_countdown_goesOn]
  · rfl
  · exact announce_countdown_prefix f

end Sys2Proof.Proofs
end

section
/-! PROOFS. Command issue and the control writes (spec/44_control.md): the command decoder in IDLE and ABORT while BUSY, then
the writes to STATUS and to the read-only registers. -/

namespace Sys2Proof.Proofs

open Sys2Proof Sys2Proof.Machine Sys2Proof.Laws

/-! The command decoder in IDLE (R107) -/

/-- In IDLE the decoder acts on the word. -/
theorem exec_wrCmd_idle {s : State} (hi : s.phase = .idle) (v : Word) :
    exec (.wrCmd v) s = .next (issueWord v s) := by
  simp [exec, execWrCmd, (busy_eq_false_iff s).mpr hi]

/-- The command MEASURE in IDLE is its issue. -/
theorem exec_measure_idle {s : State} (hi : s.phase = .idle) : exec .measure s = .next (issueMeasure s) :=
  congrArg Host.Outcome.next (unlessBusy_idle issueMeasure hi)

/-- MEASURE's word in IDLE is the command MEASURE. -/
theorem exec_wrCmd_measure_idle {s : State} (hi : s.phase = .idle) :
    exec (.wrCmd 0x00000004#32) s = exec .measure s :=
  (exec_wrCmd_idle hi _).trans (exec_measure_idle hi).symm

/-- MEASURE issued calibrated takes the snapshot and enters WAIT (R83). -/
theorem exec_measure_calibrated {s : State} (hi : s.phase = .idle) (hc : s.ctrl.cal = true) :
    exec .measure s = .next { s with
      phase := .wait, snap := ⟨.measure, s.ctrl.gain, true, s.ofs, s.scale.k, s.scale.s⟩ } := by
  rw [exec_measure_idle hi]
  simp only [issueMeasure, takeSnapshot, hc, if_true, enter]

/-! ABORT by phase (R109) -/

/-- The command ABORT while BUSY is `abort_busy()`. -/
theorem exec_abort_busy {s : State} (hb : s.phase ≠ .idle) : exec .abort s = .next (abortBusy s) := by
  rw [exec, execAbort, abortCommand]
  split
  · next hi => exact absurd hi hb
  all_goals rfl

/-- ABORT's word while BUSY is the command ABORT. -/
theorem exec_wrCmd_abort_busy {s : State} (hb : s.phase ≠ .idle) : exec (.wrCmd 0x0000000F#32) s = exec .abort s := by
  rw [exec_abort_busy hb]
  simp [exec, execWrCmd, (busy_iff s).mpr hb]

/-- ABORT in IDLE only sets DONE. -/
theorem exec_abort_idle {s : State} (hi : s.phase = .idle) : exec .abort s = .next (raise .done s) := by
  simp only [exec, execAbort, abortCommand, hi]

/-- ABORT's word in WAIT ends the command with ABORTED and DONE. -/
theorem exec_wrCmd_abort_wait {s : State} (hp : s.phase = .wait) :
    exec (.wrCmd 0x0000000F#32) s
      = .next { s with phase := .idle, flags := { s.flags with aborted := true, done := true } } :=
  (exec_wrCmd_abort_busy (by simp [hp])).trans (exec_abort_wait hp)

/-- ABORT in the pulse train is ignored. -/
theorem exec_abort_clocking {s : State} (h : clocking s.phase = true) : exec .abort s = .next s :=
  (exec_wrCmd_abort_busy (ne_idle_of_clocking h)).symm.trans (exec_wrCmd_abort_clocking h)

/-- A word with OPC 0xF that is not ABORT's is reserved: one of its upper bits is set. -/
theorem upper_ne_zero_of_opc_abort {v : Word} (ho : v.toNat % 16 = 15) (hv : v ≠ 0x0000000F#32) : v.toNat / 16 ≠ 0 := by
  intro hz
  have hn : v.toNat = 15 := by omega
  exact hv (eq_ofNat_of_toNat hn)

/-- Settles O25: the three answers to ABORT, and the words beside it by O5. -/
theorem abortByPhase : Obligations.AbortByPhase := by
  refine ⟨rfl, fun s => ⟨exec_abort_idle, exec_abort_wait, fun k hp => exec_abort_clocking ?_⟩, fun s v ho hv => ?_⟩
  · obtain hp | hp | hp := hp
    all_goals rw [hp, clocking]
  · exact reservedWordsOnlyRaiseFlags.2 s v (.inr (upper_ne_zero_of_opc_abort ho hv))

/-- Settles O21: NOP sets DONE where it acts, and where it does not it is dropped as any command (R108, R117). -/
theorem nopOnlySetsDone : Obligations.NopOnlySetsDone :=
  ⟨rfl, fun _ => ⟨fun hp => congrArg Host.Outcome.next (unlessBusy_idle (raise .done) hp),
    fun hp => congrArg Host.Outcome.next (unlessBusy_busy (raise .done) hp)⟩⟩

/-- Settles O19: while BUSY the word is ABORT's or dropped; in IDLE each word by what the decoder selects. -/
theorem writeCmdDecoder : Obligations.WriteCmdDecoder := by
  intro s v
  refine ⟨exec_wrCmd_busy, fun hp hv => hv ▸ exec_wrCmd_abort_wait hp, fun hp hv => hv ▸ exec_wrCmd_abort_clocking hp,
    fun hi hv => ?done, fun hi op hv => ?issue, fun hi hv hc => ?calibrated, fun hi hv hc => ?uncalibrated,
    fun hi hv => (reservedWordsOnlyRaiseFlags.2 s v (by omega)).1 hi⟩
  case done =>
    rw [exec_wrCmd_idle hi]
    obtain rfl | rfl := hv <;> rfl
  case issue =>
    rw [exec_wrCmd_idle hi]
    simp only [List.mem_cons, Prod.mk.injEq, List.not_mem_nil, or_false] at hv
    obtain ⟨rfl, rfl⟩ | ⟨rfl, rfl⟩ | ⟨rfl, rfl⟩ := hv <;> rfl
  case calibrated =>
    rw [hv, exec_wrCmd_measure_idle hi]
    exact exec_measure_calibrated hi hc
  case uncalibrated =>
    rw [hv, exec_wrCmd_measure_idle hi]
    exact uncalibratedMeasureReturnsZero s hi hc

/-! WR STATUS (R111) -/

theorem exec_wrStatus (v : Word) (s : State) : exec (.wrStatus v) s = .next { s with flags := s.flags.clear v } := rfl

/-- STATUS has twelve used bits (R19). -/
theorem readStatus_getLsbD_of_ge (s : State) {i : Nat} (h : 12 ≤ i) : (readReg .status s).getLsbD i = false := by
  rw [readStatus_getLsbD]
  exact List.getD_eq_default _ _ h

/-- Seen through the STATUS word, a clear takes away the flags named in `v[7:2]`: bit by bit, the mask names the six sticky
flags among the used bits. -/
theorem readStatus_clear (v : Word) (s : State) :
    readReg .status { s with flags := s.flags.clear v } = readReg .status s &&& ~~~(v &&& 0x000000FC#32) := by
  apply BitVec.eq_of_getLsbD_eq
  intro i hi
  rw [BitVec.getLsbD_and]
  by_cases h : i < 12
  · rw [readStatus_getLsbD, readStatus_getLsbD]
    interval_cases i <;> simp [statusBits, Sticky.clear, busy, waiting]
  · have h := Nat.not_lt.mp h
    rw [readStatus_getLsbD_of_ge _ h, readStatus_getLsbD_of_ge _ h, Bool.false_and]

/-- Clearing DONE lowers the interrupt line (R120). -/
theorem irq_clear_done {v : Word} (h : v.toNat / 4 % 2 = 1) (s : State) :
    irq { s with flags := s.flags.clear v } = false := by
  have hb : v.getLsbD 2 = true := by rw [getLsbD_eq_decide]; exact decide_eq_true h
  simp [irq, Sticky.clear, hb]

/-- A completion sets DONE, whatever it was. -/
theorem seqStep_done_of_finish {s : State} (hp : s.phase = .finish) : (seqStep s).flags.done = true := by
  rw [seqStep_finish hp, complete_eq]

/-- The completion of a MEASURE whose weight is narrowed sets SAT, whatever it was. -/
theorem seqStep_sat_of_narrowed {s : State} (hp : s.phase = .finish) (ho : s.snap.op = .measure)
    (hw : weightSat s.shreg s.snap ≠ weight s.shreg s.snap) : (seqStep s).flags.sat = true := by
  rw [seqStep_finish hp, complete_eq]
  simp only [ho, hw, ne_eq, not_false_eq_true, and_self, decide_true, Bool.or_true]

/-- Settles O15: the write by its clear, and the completion after it by what a completion sets in every state (R122). -/
theorem writeStatusClearsNamedFlags : Obligations.WriteStatusClearsNamedFlags := fun s v =>
  ⟨decodeBus_write .status v, _, exec_wrStatus v s, rfl, readStatus_clear v s, fun h => irq_clear_done h s,
    fun hp => ⟨seqStep_done_of_finish hp,
      seqStep_sat_of_narrowed (s := { s with flags := s.flags.clear v }) hp⟩⟩

/-! Writes to the read-only registers (R112) -/

/-- Settles O16: the three writes hand the state on. -/
theorem writesToReadOnlyRegistersIgnored : Obligations.WritesToReadOnlyRegistersIgnored := fun _ v =>
  ⟨decodeBus_write .result v, rfl, decodeBus_write .lastGrams v, rfl, decodeBus_write .raw v, rfl⟩

end Sys2Proof.Proofs
end

section
/-! PROOFS. The conditions of a command write (spec/60_exceptions.md): what is dropped with OVERRUN while BUSY. -/

namespace Sys2Proof.Proofs

open Sys2Proof Sys2Proof.Machine Sys2Proof.Laws

/-- Every command but ABORT acts only while the block is not BUSY (R117). -/
theorem exec_command_eq_unlessBusy {i : Instr} (h : i ∈ [Instr.nop, .readRaw, .tare, .readCal, .measure]) :
    ∃ act, ∀ s, exec i s = .next (unlessBusy act s) := by
  simp only [List.mem_cons, List.not_mem_nil, or_false] at h
  obtain rfl | rfl | rfl | rfl | rfl := h
  · exact ⟨raise .done, fun _ => rfl⟩
  · exact ⟨beginTransaction .readRaw, fun _ => rfl⟩
  · exact ⟨beginTransaction .tare, fun _ => rfl⟩
  · exact ⟨beginTransaction .readCal, fun _ => rfl⟩
  · exact ⟨issueMeasure, fun _ => rfl⟩

/-- Every command but ABORT is dropped with OVERRUN while BUSY, whatever it would do (R117). -/
theorem exec_command_busy {i : Instr} (h : i ∈ [Instr.nop, .readRaw, .tare, .readCal, .measure]) {s : State}
    (hb : s.phase ≠ .idle) : exec i s = .next (raise .overrun s) := by
  obtain ⟨act, he⟩ := exec_command_eq_unlessBusy h
  rw [he, unlessBusy_busy act hb]

/-- Settles O26: the words by the CMD write while BUSY, the commands by what they share. -/
theorem busyDropsCommandWithOverrun : Obligations.BusyDropsCommandWithOverrun := fun _ hb =>
  ⟨fun _ hv => exec_wrCmd_busy hb hv, fun _ hi => exec_command_busy hi hb⟩

end Sys2Proof.Proofs
end

section
/-! PROOFS. Reset (spec R132): what it gives the block in every phase, and what it leaves of the device. -/

namespace Sys2Proof.Proofs

open Sys2Proof Sys2Proof.Machine Sys2Proof.Laws

/-- A pending reset is one step, on the state that has consumed it. -/
theorem step_rst {s : State} {rest : List Input} (h : s.inputs = .rst :: rest) :
    step s = .next (assertReset { s with inputs := rest }) := step_cons h

/-- The value a register reads is the block's, and reset gives the block the same in every state. -/
theorem readReg_assertReset (r : Reg) (s : State) : readReg r (assertReset s) = readReg r State.reset := by
  cases r <;> rfl

/-- Every register reads 0 right after reset. -/
theorem readReg_reset (r : Reg) : readReg r State.reset = 0 := by
  cases r <;> decide

/-- A reset does not touch the levels the device presents, cut pulse train or not. -/
@[simp] theorem deviceAfterReset_levels (p : Phase) (d : Device) : (deviceAfterReset p d).levels = d.levels := by
  unfold deviceAfterReset
  split <;> rfl

/-- With no pulse train to cut short, a reset leaves the device as it is (R134). -/
theorem deviceAfterReset_of_idle_or_wait {p : Phase} (h : p = .idle ∨ p = .wait) (d : Device) :
    deviceAfterReset p d = d := by
  obtain rfl | rfl := h <;> rfl

/-- Reset lowers the interrupt line, DONE and IE both being 0 (R120). -/
theorem irq_assertReset (s : State) : irq (assertReset s) = false := rfl

/-- Settles O53: the reset step by what `assertReset` gives each field, the registers by what they read right after reset. -/
theorem resetClearsTheBlock : Obligations.ResetClearsTheBlock := by
  refine ⟨fun s rest h => ?_, readReg_reset, rfl, rfl, rfl, rfl⟩
  have hregs (r : Reg) : readReg r (assertReset { s with inputs := rest }) = 0 :=
    (readReg_assertReset r _).trans (readReg_reset r)
  exact ⟨_, step_rst h, hregs, assertReset_ctrl _, assertReset_flags _, assertReset_book _, assertReset_ofs _,
    assertReset_scale _, assertReset_result _, assertReset_lastGrams _, assertReset_raw _, assertReset_phase _,
    assertReset_shreg _, assertReset_sck _, irq_assertReset _, assertReset_inputs _,
    deviceAfterReset_levels s.phase s.dev, fun hp => deviceAfterReset_of_idle_or_wait hp s.dev⟩

end Sys2Proof.Proofs
end

section
/-! PROOFS. The two formats read back what they write (spec/30_encoding.md): transactions (R49, R53), command words (R54), and
a command as the write of its word (R107). -/

namespace Sys2Proof.Proofs

open Sys2Proof Sys2Proof.Machine Sys2Proof.Laws

/-! Decoding what was encoded -/

/-- Settles O1: a BUS row is the read or the write its descriptor names, a command its table word. -/
theorem decodeOfEncodeIsIdentity : Obligations.DecodeOfEncodeIsIdentity := by
  intro i
  cases i with
  | rd r => exact congrArg Except.ok (decodeBus_read r 0)
  | wrCtrl v => exact congrArg Except.ok (decodeBus_write .ctrl v)
  | wrCmd v => exact congrArg Except.ok (decodeBus_write .cmd v)
  | wrStatus v => exact congrArg Except.ok (decodeBus_write .status v)
  | wrOffset v => exact congrArg Except.ok (decodeBus_write .offset v)
  | wrScale v => exact congrArg Except.ok (decodeBus_write .scale v)
  | wrResult v => exact congrArg Except.ok (decodeBus_write .result v)
  | wrLastGrams v => exact congrArg Except.ok (decodeBus_write .lastGrams v)
  | wrRaw v => exact congrArg Except.ok (decodeBus_write .raw v)
  | nop => rfl
  | readRaw => rfl
  | tare => rfl
  | readCal => rfl
  | measure => rfl
  | abort => rfl

/-! Encoding what was decoded -/

/-- Settles O4: the six words of the command map, and the words the decoder refuses, which are none of the six. -/
theorem commandMapIsExact : Obligations.CommandMapIsExact := by
  intro v i
  obtain ⟨rfl, hd⟩ | ⟨rfl, hd⟩ | ⟨rfl, hd⟩ | ⟨rfl, hd⟩ | ⟨rfl, hd⟩ | ⟨rfl, hd⟩ | ⟨hv, hd⟩ | ⟨hlo, hhi, hd⟩ :=
    decodeCmd_word v
  iterate 6
    · rw [hd]
      simp [eq_comm]
  all_goals
    have hn : 5 ≤ v.toNat ∧ v.toNat ≠ 15 := by omega
    refine iff_of_false (by simp [hd]) ?_
    rintro (⟨rfl, -⟩ | ⟨rfl, -⟩ | ⟨rfl, -⟩ | ⟨rfl, -⟩ | ⟨rfl, -⟩ | ⟨rfl, -⟩)
    all_goals exact absurd hn (by decide)

/-- WE and A are all of a descriptor (R49). -/
theorem descriptor_we_reg (t : Transaction) : descriptor t.we t.reg = t.desc :=
  (by decide : ∀ d : Descriptor, descriptor (d.getLsbD 3) (regAt (d.extractLsb' 0 3)) = d) t.desc

/-- The descriptors of the reads are those below 8 (R53). -/
theorem toNat_descriptor_lt (b : Bool) (r : Reg) : (descriptor b r).toNat < 8 ↔ b = false := by
  cases b <;> cases r <;> decide

/-- The eight writes are encoded alike. -/
theorem encode_writeTo (r : Reg) (v : Word) : encode (writeTo r v) = writeCode r v := by
  cases r <;> rfl

/-- Settles O2: a transaction is the read or the write of its register, and a command's word is the one of the command map. -/
theorem encodeOfDecodeLosesNothing : Obligations.EncodeOfDecodeLosesNothing := by
  refine ⟨fun t => ?_, fun v i h => ?_⟩
  · rw [← descriptor_we_reg t]
    simp only [toNat_descriptor_lt]
    cases hw : t.we
    · simp [decodeBus, hw, encode, readCode, Code.onPort]
    · simp [decodeBus, hw, encode_writeTo, writeCode, Code.onPort]
  · obtain ⟨rfl, rfl⟩ | ⟨rfl, rfl⟩ | ⟨rfl, rfl⟩ | ⟨rfl, rfl⟩ | ⟨rfl, rfl⟩ | ⟨rfl, rfl⟩ := (commandMapIsExact v i).mp h
    all_goals rfl

/-! A command is the write of its word -/

/-- In IDLE the word of a command does what the command does. -/
theorem exec_wrCmd_of_decodeCmd_idle {v : Word} {i : Instr} (hd : decodeCmd v = .ok i) {s : State}
    (hi : s.phase = .idle) : exec (.wrCmd v) s = exec i s := by
  rw [exec_wrCmd_idle hi]
  obtain ⟨rfl, rfl⟩ | ⟨rfl, rfl⟩ | ⟨rfl, rfl⟩ | ⟨rfl, rfl⟩ | ⟨rfl, rfl⟩ | ⟨rfl, rfl⟩ := (commandMapIsExact v i).mp hd
  · exact congrArg Host.Outcome.next (unlessBusy_idle (raise .done) hi).symm
  · exact congrArg Host.Outcome.next (unlessBusy_idle (beginTransaction .readRaw) hi).symm
  · exact congrArg Host.Outcome.next (unlessBusy_idle (beginTransaction .tare) hi).symm
  · exact congrArg Host.Outcome.next (unlessBusy_idle (beginTransaction .readCal) hi).symm
  · exact (exec_measure_idle hi).symm
  · exact (exec_abort_idle hi).symm

/-- While BUSY the word of a command is dropped as the command is, and ABORT's word aborts as ABORT does. -/
theorem exec_wrCmd_of_decodeCmd_busy {v : Word} {i : Instr} (hd : decodeCmd v = .ok i) {s : State}
    (hb : s.phase ≠ .idle) : exec (.wrCmd v) s = exec i s := by
  obtain ⟨rfl, rfl⟩ | ⟨rfl, rfl⟩ | ⟨rfl, rfl⟩ | ⟨rfl, rfl⟩ | ⟨rfl, rfl⟩ | ⟨rfl, rfl⟩ := (commandMapIsExact v i).mp hd
  case inr.inr.inr.inr.inr => exact exec_wrCmd_abort_busy hb
  all_goals exact (exec_wrCmd_busy hb (by decide)).trans (exec_command_busy (by simp) hb).symm

/-- Settles O20: by whether the block is BUSY. -/
theorem commandWordIsItsCommand : Obligations.CommandWordIsItsCommand := fun _ _ hd s =>
  (eq_or_ne s.phase .idle).elim (exec_wrCmd_of_decodeCmd_idle hd) (exec_wrCmd_of_decodeCmd_busy hd)

end Sys2Proof.Proofs
end

section
/-! PROOFS. Accesses of a byte-addressed integration (spec/20_memory.md R35, R38, R40), and register writes written twice (R42) or
read back (R44). -/

namespace Sys2Proof.Proofs

open Sys2Proof Sys2Proof.Machine Sys2Proof.Laws

/-! An integration's access (R35, R40) -/

/-- The descriptor of word index A is A for a read and 8 + A for a write (R53). -/
theorem descriptor_regAt (b : Bool) {A : Nat} (h : A < 8) :
    descriptor b (regAt (BitVec.ofNat 3 A)) = BitVec.ofNat 4 (8 * b.toNat + A) :=
  (by decide : ∀ b : Bool, ∀ A < 8, descriptor b (regAt (BitVec.ofNat 3 A)) = BitVec.ofNat 4 (8 * b.toNat + A)) b A h

/-- A word access at `BASE_ADDR + 4*A` is the transaction with descriptor `{we, A}`. -/
theorem busTransaction_register (b : Bool) (v : Word) {A : Nat} (h : A < 8) :
    busTransaction ⟨Config.baseAddr + 4 * A, 4, b, v⟩ = .next ⟨BitVec.ofNat 4 (8 * b.toNat + A), v⟩ := by
  have hin : BusAccess.inBlock ⟨Config.baseAddr + 4 * A, 4, b, v⟩ = true := by
    simp only [BusAccess.inBlock, Bool.and_eq_true, decide_eq_true_eq]
    omega
  have hal : BusAccess.aligned ⟨Config.baseAddr + 4 * A, 4, b, v⟩ = true := by
    simp only [BusAccess.aligned, Config.baseAddr, beq_iff_eq]
    omega
  simp [busTransaction, BusAccess.wholeWord, hal, hin, descriptor_regAt b h]

/-- A word access at `BASE_ADDR + 4*A` runs the transaction with descriptor `{we, A}`. -/
theorem step_bus_register {s : State} {A : Nat} {b : Bool} {v : Word} {rest : List Input} (h : A < 8)
    (hi : s.inputs = .bus ⟨Config.baseAddr + 4 * A, 4, b, v⟩ :: rest) :
    step s = exec (decodeBus ⟨BitVec.ofNat 4 (8 * b.toNat + A), v⟩) { s with inputs := rest } := by
  rw [step_cons hi]
  simp only [act, busTransaction_register b v h]

/-- Settles O9: the access of one register by its transaction, and every other access by the check that stops it. -/
theorem integrationAccessIsOneWordOrRefused : Obligations.IntegrationAccessIsOneWordOrRefused := by
  refine ⟨Nat.mul_mod_right 32 _, fun s A v rest hA => ⟨fun hi => ?read, step_bus_register hA⟩, fun s a rest hi => ?_⟩
  case read => simpa using step_bus_register hA hi
  rw [step_cons hi]
  refine ⟨fun hs => ?size, fun hs ha => ?alignment, fun hs ha ho => ?outside⟩
  case size => simp [act, busTransaction, BusAccess.wholeWord, hs]
  case alignment => simp [act, busTransaction, BusAccess.wholeWord, BusAccess.aligned, hs, ha]
  case outside =>
    have hin : a.inBlock = false := by
      simp only [BusAccess.inBlock, Bool.and_eq_false_iff, decide_eq_false_iff_not]
      omega
    simp [act, busTransaction, BusAccess.wholeWord, BusAccess.aligned, hs, ha, hin]

/-! Byte lanes (R38) -/

theorem regAt_index (r : Reg) : regAt r.index = r := by cases r <;> rfl

/-- Bit `i` of lane `j` is bit `8 * j + i` of the word. -/
theorem byteLane_getLsbD (w : Word) (j : Nat) {i : Nat} (h : i < 8) : (byteLane w j).getLsbD i = w.getLsbD (8 * j + i) := by
  simp [byteLane, h]

/-- The byte at `BASE_ADDR + 4*A + j` is lane `j` of register A. -/
theorem byteAt_register (s : State) (r : Reg) {j : Nat} (h : j < 4) :
    byteAt s (Config.baseAddr + 4 * r.index.toNat + j) = some (byteLane (readReg r s) j) := by
  have hr := r.index.isLt
  have hsub : Config.baseAddr + 4 * r.index.toNat + j - Config.baseAddr = 4 * r.index.toNat + j := by omega
  have hdiv : (4 * r.index.toNat + j) / 4 = r.index.toNat := by omega
  have hmod : (4 * r.index.toNat + j) % 4 = j := by omega
  rw [byteAt, if_pos (by omega), hsub, hdiv, hmod, BitVec.ofNat_toNat, BitVec.setWidth_eq, regAt_index]

/-- Settles O10: each byte of the block by its lane, and the block's addresses by the test of `byteAt`. -/
theorem registerBytesAreLittleEndianLanes : Obligations.RegisterBytesAreLittleEndianLanes := by
  refine ⟨fun s r j hj => ⟨_, byteAt_register s r hj, fun i hi => byteLane_getLsbD _ j hi⟩, fun s a => ?_⟩
  rw [byteAt]
  split
  · next h => exact iff_of_true rfl h
  · next h => exact iff_of_false (by simp) h

/-! Writes written twice (R42) -/

/-- A flag named twice is cleared once. -/
theorem clear_clear (v : Word) (x : Sticky) : (x.clear v).clear v = x.clear v := by
  simp [Sticky.clear]

/-- Settles O17: no operand of the four writes moves with the write, and clearing a bit again changes nothing. -/
theorem registerWritesAreIdempotent : Obligations.RegisterWritesAreIdempotent := by
  intro s v i hi
  simp only [List.mem_cons, List.not_mem_nil, or_false] at hi
  obtain rfl | rfl | rfl | rfl := hi
  · exact ⟨_, rfl, rfl⟩
  · exact ⟨_, rfl, rfl⟩
  · exact ⟨_, rfl, by simp [exec, execWrScale]⟩
  · exact ⟨_, rfl, by rw [exec_wrStatus, clear_clear]⟩

/-! Reads after a write (R44) -/

/-- A word below `2 ^ n` has no bit from `n` on. -/
theorem getLsbD_of_toNat_lt {w : Word} {n i : Nat} (h : w.toNat < 2 ^ n) (hi : n ≤ i) : w.getLsbD i = false :=
  Nat.testBit_lt_two_pow (h.trans_le (Nat.pow_le_pow_right (by decide) hi))

/-- The three used bits of the CTRL word, bit 0 first. -/
theorem ctrlWord_getLsbD (c : Ctrl) (i : Nat) :
    (ctrlWord c).getLsbD i = [gainBit c.gain, c.cal, c.ie].getD i false := by
  by_cases hi : i < 3
  · rw [ctrlWord]
    interval_cases i <;> simp only [BitVec.getLsbD_append] <;> simp
  · rw [List.getD_eq_default _ _ (by simpa using hi)]
    refine getLsbD_of_toNat_lt (n := 3) ?_ (by omega)
    have hgain := (gainBit c.gain).toNat_le
    have hcal := c.cal.toNat_le
    have hie := c.ie.toNat_le
    simp only [ctrlWord, toNat_append_eq_add, BitVec.toNat_ofBool, BitVec.toNat_ofNat]
    omega

/-- The GAIN bit reads back as it was written. -/
theorem gainBit_gainField (v : Word) : gainBit (gainField v) = v.getLsbD 0 := by
  rw [gainField]
  cases v.getLsbD 0 <;> rfl

/-- The mask of a CTRL write: bits 0 and 2, and bit 1 while K is not 0. -/
theorem ctrlMask_getLsbD (k : Coeff) (i : Nat) :
    (if k = 0 then 0x5#32 else 0x7#32).getLsbD i = [true, k != 0, true].getD i false := by
  match i with
  | 0 => split <;> rfl
  | 1 =>
    split
    · next hk => rw [hk]; rfl
    · next hk => exact (bne_iff_ne.mpr hk).symm
  | 2 => split <;> rfl
  | n + 3 => exact getLsbD_of_toNat_lt (n := 3) (by split <;> decide) (by omega)

/-- CTRL reads back the low three bits of what was written, without CAL while K is 0. -/
theorem ctrlWord_written (v : Word) (k : Coeff) :
    ctrlWord ⟨gainField v, calField v && k != 0, ieField v⟩ = v &&& (if k = 0 then 0x5#32 else 0x7#32) := by
  apply BitVec.eq_of_getLsbD_eq
  intro i _
  rw [ctrlWord_getLsbD, BitVec.getLsbD_and, ctrlMask_getLsbD, gainBit_gainField]
  match i with
  | 0 => exact (Bool.and_true _).symm
  | 1 => rfl
  | 2 => exact (Bool.and_true _).symm
  | n + 3 => exact (Bool.and_false _).symm

/-- OFFSET reads back the low 24 bits of what was written, sign-extended. -/
theorem signExtend_ofsField (v : Word) : (ofsField v).signExtend 32 = (v <<< 8).sshiftRight 8 := by
  apply BitVec.eq_of_getLsbD_eq
  intro i hi
  rw [BitVec.getLsbD_signExtend, BitVec.getLsbD_sshiftRight]
  by_cases h : i < 24
  · simp [ofsField, h, hi, show 8 + i < 32 by omega]
  · simp [ofsField, h, hi, show ¬ 8 + i < 32 by omega, BitVec.msb_eq_getLsbD_last]

/-- SCALE reads back the low 21 bits of what was written. -/
theorem scaleWord_written (v : Word) : scaleWord ⟨kField v, sField v⟩ = v &&& 0x001FFFFF#32 := by
  have hv : (v &&& 0x001FFFFF#32).toNat = v.toNat % 2 ^ 21 := Nat.and_two_pow_sub_one_eq_mod v.toNat 21
  rw [scaleWord_eq, kField_eq, sField_eq]
  refine (eq_ofNat_of_toNat ?_).symm
  rw [hv, BitVec.toNat_ofNat, BitVec.toNat_ofNat]
  omega

/-- Settles O18: each register by the word it reads after the write; a write to a read-only register leaves nothing. -/
theorem readAfterWriteReturnsLegalisedValue : Obligations.ReadAfterWriteReturnsLegalisedValue := by
  intro s v
  refine ⟨⟨_, rfl, ?ctrl⟩, ⟨_, rfl, ?offset⟩, ⟨_, rfl, ?scale⟩, fun i hi r => ⟨s, ?ignored, exec_rd r s⟩⟩
  case ctrl => rw [exec_rd, readReg, ctrlWord_written]
  case offset => rw [exec_rd, readReg, signExtend_ofsField]
  case scale => rw [exec_rd, readReg, scaleWord_written]
  case ignored =>
    simp only [List.mem_cons, List.not_mem_nil, or_false] at hi
    obtain rfl | rfl | rfl := hi <;> rfl

end Sys2Proof.Proofs
end

section
/-! PROOFS. One step (spec/00_scope.md R7, spec/20_memory.md R44): the transaction it runs, the turns that are none, and the
issue of the commands that clock the device (R73, R80, R82, R83). -/

namespace Sys2Proof.Proofs

open Sys2Proof Sys2Proof.Machine Sys2Proof.Laws

/-- A pending transaction of the host is one step: the decoded instruction on the state that has consumed it. -/
theorem step_host {s : State} {t : Transaction} {rest : List Input} (h : s.inputs = .host t :: rest) :
    step s = exec (decodeBus t) { s with inputs := rest } := step_cons h

/-- Settles O6: a step with a transaction pending. -/
theorem stepRunsDecodedTransaction : Obligations.StepRunsDecodedTransaction := fun _ _ _ h => step_host h

/-- On the port an instruction does what it does by itself: a BUS row decodes to itself, and a command is the write of its
word. -/
theorem exec_decodeBus_onPort (i : Instr) (s : State) : exec (decodeBus (encode i).onPort) s = exec i s := by
  have hd := decodeOfEncodeIsIdentity i
  cases he : encode i with
  | bus t =>
    rw [he, decode] at hd
    cases hd
    rfl
  | cmd v =>
    rw [he, decode] at hd
    rw [Code.onPort, show decodeBus ⟨0x9#4, v⟩ = .wrCmd v from decodeBus_write .cmd v]
    exact commandWordIsItsCommand v i hd s

/-- Settles O7: the transaction is the instruction's own encoding. -/
theorem stepRunsEncodedInstruction : Obligations.StepRunsEncodedInstruction := fun _ _ _ h =>
  (step_host h).trans (exec_decodeBus_onPort _ _)

/-- Settles O8: the three inputs that are no transaction, and the SEQ agent in IDLE. -/
theorem stepWithoutTransaction : Obligations.StepWithoutTransaction :=
  ⟨fun _ _ h => step_cons h, fun _ => step_nil, fun _ _ => step_rst, fun _ => seqStep_idle⟩

/-! The issue of a command that clocks the device -/

/-- The three commands besides MEASURE are issued alike. -/
theorem exec_deviceCommand_idle {s : State} (hi : s.phase = .idle) {i : Instr} {op : Op}
    (h : (i, op) ∈ [(Instr.readRaw, Op.readRaw), (Instr.tare, Op.tare), (Instr.readCal, Op.readCal)]) :
    exec i s = .next (beginTransaction op s) := by
  simp only [List.mem_cons, Prod.mk.injEq, List.not_mem_nil, or_false] at h
  obtain ⟨rfl, rfl⟩ | ⟨rfl, rfl⟩ | ⟨rfl, rfl⟩ := h
  all_goals exact congrArg Host.Outcome.next (unlessBusy_idle (beginTransaction _) hi)

/-- Settles O22: each of the three begins its transaction. -/
theorem deviceCommandsIssueFromIdle : Obligations.DeviceCommandsIssueFromIdle := fun _ hi _ hc =>
  exec_deviceCommand_idle hi hc

/-- Settles O23: MEASURE issued with CAL set. -/
theorem calibratedMeasureIssuesFromIdle : Obligations.CalibratedMeasureIssuesFromIdle := fun _ => exec_measure_calibrated

end Sys2Proof.Proofs
end

section
/-! PROOFS. What a transaction in progress shows (`seqView`), and the block invariant: what a step keeps of it, and what follows
from it for the gain (R72) and for reset (R133). -/

namespace Sys2Proof.Proofs

open Sys2Proof Sys2Proof.Machine Sys2Proof.Laws

/-! Transactions and the sequencer's view -/

/-- A transaction is a write to CMD, or it writes no command word. -/
theorem wrCmd_or_commandless (t : Transaction) : (∃ v, decodeBus t = .wrCmd v) ∨ commandless t = true := by
  obtain ⟨r, hd⟩ | ⟨v, hd⟩ | ⟨v, hd⟩ | ⟨v, hd⟩ | ⟨v, hd⟩ | ⟨v, hd⟩ | ⟨v, hd⟩ | ⟨v, hd⟩ | ⟨v, hd⟩ := decodeBus_cases t
  case inr.inr.inl => exact .inl ⟨v, hd⟩
  all_goals exact .inr (by rw [commandless, hd])

/-- A transaction that writes no command word is answered, and reaches neither the sequencer's view nor the inputs to come. -/
theorem exec_commandless {t : Transaction} (hc : commandless t = true) (s : State) :
    ∃ u, exec (decodeBus t) s = .next u ∧ seqView u = seqView s ∧ u.inputs = s.inputs := by
  obtain ⟨r, hd⟩ | ⟨v, hd⟩ | ⟨v, hd⟩ | ⟨v, hd⟩ | ⟨v, hd⟩ | ⟨v, hd⟩ | ⟨v, hd⟩ | ⟨v, hd⟩ | ⟨v, hd⟩ := decodeBus_cases t
  case inr.inr.inl =>
    rw [commandless, hd] at hc
    cases hc
  all_goals
    rw [hd]
    exact ⟨_, rfl, rfl, rfl⟩

/-- What a write of `v` to CMD can leave of the sequencer's view: all of it; WAIT with the snapshot of a command issued in IDLE,
calibrated for MEASURE; IDLE with the snapshot and the RESULT of an uncalibrated MEASURE; or IDLE after an ABORT in WAIT. -/
theorem execWrCmd_seqView {v : Word} {s u : State} (h : execWrCmd v s = .next u) :
    seqView u = seqView s
      ∨ (s.phase = .idle ∧ ∃ op, (op = .measure → s.ctrl.cal = true) ∧ u = beginTransaction op s)
      ∨ (s.phase = .idle ∧ seqView u = { seqView s with snap := (takeSnapshot .measure s).snap, result := 0 })
      ∨ (s.phase = .wait ∧ v = 0x0000000F#32 ∧ seqView u = { seqView s with phase := .idle }) := by
  obtain ⟨-, -, he⟩ | ⟨hp, op, hv, he⟩ | ⟨hp, -, hc, he⟩ | ⟨hp, -, -, he⟩ | ⟨-, -, he⟩ | ⟨hp, hv, he⟩ | ⟨-, -, he⟩ | ⟨-, -, he⟩ :=
    execWrCmd_spec v s
  all_goals cases he.symm.trans h
  · exact .inl rfl
  · refine .inr (.inl ⟨hp, op, ?_, rfl⟩)
    rintro rfl
    simp at hv
  · exact .inr (.inl ⟨hp, .measure, fun _ => hc, rfl⟩)
  · exact .inr (.inr (.inl ⟨hp, rfl⟩))
  · exact .inl rfl
  · exact .inr (.inr (.inr ⟨hp, hv, rfl⟩))
  · exact .inl rfl
  · exact .inl rfl

/-! The invariant -/

/-- Settles O47: clause by clause, the reset state being a literal. -/
theorem resetMeetsInvariant : Obligations.ResetMeetsInvariant where
  cal_coeff := nofun
  pulse_bound := nofun
  sck_level := rfl
  gain_mirror := nofun
  gain_drawn _ h := by cases h; exact Nat.one_pos
  sgain_valid := nofun
  measure_calibrated h := absurd rfl h

/-- All of the invariant but its first clause is about the sequencer's view. -/
theorem inv_of_seqView {s t : State} (hs : Inv s) (hv : seqView t = seqView s)
    (hc : t.ctrl.cal = true → t.scale.k ≠ 0) : Inv t := by
  have hphase : t.phase = s.phase := congrArg SeqView.phase hv
  have hsnap : t.snap = s.snap := congrArg SeqView.snap hv
  have hsck : t.sck = s.sck := congrArg SeqView.sck hv
  have hbook : t.book = s.book := congrArg SeqView.book hv
  have hdev : t.dev = s.dev := congrArg SeqView.dev hv
  exact {
    cal_coeff := hc
    pulse_bound := by rw [hphase, hsnap]; exact hs.pulse_bound
    sck_level := by rw [hphase, hsck]; exact hs.sck_level
    gain_mirror := by rw [hbook, hdev]; exact hs.gain_mirror
    gain_drawn := by rw [hdev]; exact hs.gain_drawn
    sgain_valid := by rw [hbook]; exact hs.sgain_valid
    measure_calibrated := by rw [hphase, hsnap]; exact hs.measure_calibrated }

/-- The inputs to come are no part of the invariant. -/
theorem inv_withInputs {s : State} (hs : Inv s) (l : List Input) : Inv { s with inputs := l } :=
  inv_of_seqView hs rfl hs.cal_coeff

/-- A reset gives the block what the reset state has, and a gain left unknown the number of the draw just made. -/
theorem inv_assertReset {s : State} (hs : Inv s) : Inv (assertReset s) where
  cal_coeff := nofun
  pulse_bound := nofun
  sck_level := rfl
  gain_mirror := nofun
  gain_drawn n h := by
    rw [assertReset_dev, deviceAfterReset] at h ⊢
    split at h
    · next hc => cases h; rw [if_pos hc]; exact Nat.lt_succ_self _
    · next hc => rw [if_neg hc]; exact hs.gain_drawn n h
  sgain_valid := nofun
  measure_calibrated h := absurd rfl h

/-- Before the completion the block stays BUSY under the same snapshot and bookkeeping, so a move between the phases keeps the
invariant where it keeps the pulse index in range, SCK at the phase's level, and the device's gain and draws. -/
theorem inv_of_move {s : State} (hs : Inv s) (hb : s.phase ≠ .idle) {d : Device}
    (hd : d.gain = s.dev.gain ∧ s.dev.draws ≤ d.draws) {p : Phase} (hp : ∀ k, p.pulse = some k → k < totalPulses s.snap.gain)
    (r : Raw24) : Inv { s with phase := p, sck := p.isFall, shreg := r, dev := d } where
  cal_coeff := hs.cal_coeff
  pulse_bound := hp
  sck_level := rfl
  gain_mirror h := hd.1.trans (hs.gain_mirror h)
  gain_drawn n h := (hs.gain_drawn n (hd.1.symm.trans h)).trans_le hd.2
  sgain_valid := hs.sgain_valid
  measure_calibrated _ := hs.measure_calibrated hb

/-- The phase after a pulse carries an index in range, and SCK is low in it. -/
theorem afterPulse_spec (k : Nat) (g : Gain) :
    (∀ j, (afterPulse k g).pulse = some j → j < totalPulses g) ∧ (afterPulse k g).isFall = false := by
  unfold afterPulse
  split
  · next h => exact ⟨fun j hj => by cases hj; exact h, rfl⟩
  · exact ⟨nofun, rfl⟩

/-- A turn of the SEQ agent keeps the invariant. -/
theorem inv_seqStep {s : State} (hs : Inv s) : Inv (seqStep s) := by
  have hsck := hs.sck_level
  obtain hp | hp | ⟨k, hp⟩ | ⟨k, hp⟩ | hp := phase_cases s
  · rwa [seqStep_idle hp]
  · obtain ⟨d, hd, he⟩ := pollReady_spec s
    rw [hp] at hsck
    rw [seqStep_wait hp, he, hp]
    cases (sampleDout s).1
    · have h := inv_of_move hs (by simp [hp]) hd (p := .rise 0)
        (by rintro k ⟨⟩; have := totalPulses_bounds s.snap.gain; omega) s.shreg
      rwa [show Phase.isFall (.rise 0) = s.sck from hsck.symm] at h
    · have h := inv_of_move hs (by simp [hp]) hd (p := .wait) nofun s.shreg
      rwa [show Phase.isFall .wait = s.sck from hsck.symm] at h
  · rw [seqStep_rise hp]
    exact inv_of_move hs (by simp [hp]) ⟨rfl, le_rfl⟩ (p := .fall k)
      (by rintro j ⟨⟩; exact hs.pulse_bound k (by rw [hp, Phase.pulse])) s.shreg
  · obtain ⟨d, hd, he⟩ := lowerClock_spec k s
    obtain ⟨hbound, hlow⟩ := afterPulse_spec k s.snap.gain
    rw [seqStep_fall hp, he, ← hlow]
    exact inv_of_move hs (by simp [hp]) hd hbound _
  · rw [seqStep_finish hp, complete_eq]
    rw [hp] at hsck
    exact {
      cal_coeff := hs.cal_coeff
      pulse_bound := nofun
      sck_level := hsck
      gain_mirror := fun _ => rfl
      gain_drawn := nofun
      sgain_valid := fun _ => rfl
      measure_calibrated := fun h => absurd rfl h }

/-- A command word keeps the invariant: a MEASURE in progress was issued with CAL set, hence with a non-zero K. -/
theorem inv_execWrCmd {v : Word} {s u : State} (hs : Inv s) (h : execWrCmd v s = .next u) : Inv u := by
  obtain ⟨hctrl, hscale⟩ := execWrCmd_keeps_ctrl_scale h
  have hc : u.ctrl.cal = true → u.scale.k ≠ 0 := by rw [hctrl, hscale]; exact hs.cal_coeff
  have hsck := hs.sck_level
  obtain hv | ⟨hp, op, hop, rfl⟩ | ⟨hp, hv⟩ | ⟨hp, -, hv⟩ := execWrCmd_seqView h
  · exact inv_of_seqView hs hv hc
  · rw [hp] at hsck
    exact {
      cal_coeff := hc
      pulse_bound := nofun
      sck_level := hsck
      gain_mirror := hs.gain_mirror
      gain_drawn := hs.gain_drawn
      sgain_valid := hs.sgain_valid
      measure_calibrated := fun _ ho => ⟨hop ho, hs.cal_coeff (hop ho)⟩ }
  · refine inv_of_seqView (s := { s with snap := (takeSnapshot .measure s).snap, result := 0 }) ?_ hv hc
    exact { hs with
      pulse_bound := by rw [hp]; nofun
      measure_calibrated := fun h => absurd hp h }
  · refine inv_of_seqView (s := { s with phase := .idle }) ?_ hv hc
    rw [hp] at hsck
    exact { hs with
      pulse_bound := nofun
      sck_level := hsck
      measure_calibrated := fun h => absurd rfl h }

/-- Settles O46: a turn, a reset, a command word, or a transaction that the sequencer's view does not show; the first clause is
R17 over every step. -/
theorem stepKeepsInvariant : Obligations.StepKeepsInvariant := by
  intro s s' hs h
  have hcal := step_keeps_cal_coeff hs.cal_coeff h
  obtain ⟨l, hl⟩ := nextInput_rest s
  have hl' := inv_withInputs hs l
  obtain ⟨-, rfl⟩ | ⟨-, rfl⟩ | ⟨t, -, he⟩ := step_cases h
  · exact hl ▸ inv_seqStep hl'
  · exact hl ▸ inv_assertReset hl'
  · rw [hl] at he
    obtain ⟨v, hd⟩ | hc := wrCmd_or_commandless t
    · rw [hd] at he
      exact inv_execWrCmd hl' he
    · obtain ⟨u, hu, hv, -⟩ := exec_commandless hc { s with inputs := l }
      cases he.symm.trans hu
      exact inv_of_seqView hs hv hcal

/-! The gain (R72, R133) -/

/-- A gain left unknown by a reset is a new one: no draw repeats the number of an earlier one. -/
theorem inv_gain_ne_next_draw {s : State} (hs : Inv s) : s.dev.gain ≠ .unknown s.dev.draws := fun h =>
  Nat.lt_irrefl _ (hs.gain_drawn _ h)

/-- Every phase but IDLE and WAIT is of the pulse train. -/
theorem clocking_of_ne {p : Phase} (hi : p ≠ .idle) (hw : p ≠ .wait) : clocking p = true := by
  cases p with
  | idle => exact absurd rfl hi
  | wait => exact absurd rfl hw
  | rise k => rfl
  | fall k => rfl
  | finish => rfl

/-- Settles O54: the reset step on the device, by whether a pulse train is cut short. -/
theorem resetDoesNotReachTheDevice : Obligations.ResetDoesNotReachTheDevice := by
  intro s rest h
  refine ⟨_, step_rst h, deviceAfterReset_levels s.phase s.dev, fun hp => deviceAfterReset_of_idle_or_wait hp s.dev,
    fun hi hw => ?_, rfl, rfl⟩
  have hd : (assertReset { s with inputs := rest }).dev
      = { s.dev with gain := .unknown s.dev.draws, draws := s.dev.draws + 1 } := if_pos (clocking_of_ne hi hw)
  rw [hd]
  exact ⟨rfl, rfl, fun hs => (inv_gain_ne_next_draw hs).symm⟩

/-- Settles O55: the completion moves PGAIN to SGAIN, and PGAIN, where valid, was the gain the device held. -/
theorem gainTakesEffectOneSampleLater : Obligations.GainTakesEffectOneSampleLater := by
  intro s later hs hp hi
  refine ⟨_, step_seq hi, ?_⟩
  rw [seqStep_finish hp, complete_eq]
  exact ⟨hs.gain_mirror, rfl, rfl, rfl, id⟩

end Sys2Proof.Proofs
end

section
/-! PROOFS. The sticky flags (spec/60_exceptions.md): what a step can do to them, said once, and who sets (R116, R119) and clears
(R32) each; then CAL, the gain bookkeeping, and the interrupt line (R120). -/

namespace Sys2Proof.Proofs

open Sys2Proof Sys2Proof.Machine Sys2Proof.Laws

/-! What a step does to the flags -/

/-- How a step from `s` to `s'` came by its flags. -/
inductive FlagStep (s s' : State) : Prop where
  | kept (hf : s'.flags = s.flags)
  | reset (hx : (nextInput s).1 = .rst) (hf : s'.flags = ⟨false, false, false, false, false, false⟩)
  | cleared (v : Word) (hi : nextInstr s = some (.wrStatus v)) (hf : s'.flags = s.flags.clear v)
  | completed (hx : (nextInput s).1 = .seq) (hp : s.phase = .finish) (hf : s'.flags = s.flags.set .done)
  | narrowed (hx : (nextInput s).1 = .seq) (hp : s.phase = .finish) (ho : s.snap.op = .measure)
      (hw : weightSat s.shreg s.snap ≠ weight s.shreg s.snap) (hf : s'.flags = (s.flags.set .done).set .sat)
      (hr : s'.result = bits32 (weightSat s.shreg s.snap))
  | ended (v : Word) (hi : nextInstr s = some (.wrCmd v)) (hp : s.phase = .idle)
      (hv : v = 0x00000000#32 ∨ v = 0x0000000F#32) (hf : s'.flags = s.flags.set .done)
  | uncalibrated (hi : nextInstr s = some (.wrCmd 0x00000004#32)) (hp : s.phase = .idle) (hc : s.ctrl.cal = false)
      (hf : s'.flags = (s.flags.set .done).set .uncal) (hr : s'.result = 0)
  | reserved (v : Word) (hi : nextInstr s = some (.wrCmd v)) (hp : s.phase = .idle) (hd : ∃ e, decodeCmd v = .error e)
      (hf : s'.flags = (s.flags.set .done).set .illegal)
  | aborted (hi : nextInstr s = some (.wrCmd 0x0000000F#32)) (hp : s.phase = .wait)
      (hf : s'.flags = (s.flags.set .done).set .aborted)
  | overrun (v : Word) (hi : nextInstr s = some (.wrCmd v)) (hp : s.phase ≠ .idle) (hv : v ≠ 0x0000000F#32)
      (hf : s'.flags = s.flags.set .overrun)

/-- A write to CMD, by the cases of the command decoder. -/
theorem flagStep_of_execWrCmd {s s' : State} {v : Word} {l : List Input} (hi : nextInstr s = some (.wrCmd v))
    (h : execWrCmd v { s with inputs := l } = .next s') : FlagStep s s' := by
  obtain ⟨hp, hv, he⟩ | ⟨hp, op, -, he⟩ | ⟨hp, -, hc, he⟩ | ⟨hp, rfl, hc, he⟩ | ⟨hp, hd, he⟩ | ⟨hp, rfl, he⟩ | ⟨-, -, he⟩
    | ⟨hp, hv, he⟩ := execWrCmd_spec v { s with inputs := l }
  all_goals cases he.symm.trans h
  · exact .ended v hi hp hv rfl
  · exact .kept rfl
  · exact .kept rfl
  · exact .uncalibrated hi hp hc rfl rfl
  · exact .reserved v hi hp hd rfl
  · exact .aborted hi hp rfl
  · exact .kept rfl
  · exact .overrun v hi hp hv rfl

/-- A transaction, by what it decodes to: WR STATUS and WR CMD alone reach the flags. -/
theorem flagStep_of_transaction {s s' : State} {t : Transaction} {l : List Input} (hi : nextInstr s = some (decodeBus t))
    (h : exec (decodeBus t) { s with inputs := l } = .next s') : FlagStep s s' := by
  obtain ⟨r, hd⟩ | ⟨v, hd⟩ | ⟨v, hd⟩ | ⟨v, hd⟩ | ⟨v, hd⟩ | ⟨v, hd⟩ | ⟨v, hd⟩ | ⟨v, hd⟩ | ⟨v, hd⟩ := decodeBus_cases t
  all_goals rw [hd] at hi h
  case inr.inr.inl => exact flagStep_of_execWrCmd hi h
  case inr.inr.inr.inl =>
    cases h
    exact .cleared v hi rfl
  all_goals
    cases h
    exact .kept rfl

/-- The completion, by whether it narrows the weight of a MEASURE. -/
theorem flagStep_of_complete {s : State} {l : List Input} (hx : (nextInput s).1 = .seq) (hp : s.phase = .finish) :
    FlagStep s (complete { s with inputs := l }) := by
  rw [complete_eq]
  by_cases hn : s.snap.op = .measure ∧ weightSat s.shreg s.snap ≠ weight s.shreg s.snap
  · exact .narrowed hx hp hn.1 hn.2 (by simp only [decide_eq_true hn, Bool.or_true]; rfl) (by simp only [hn.1])
  · exact .completed hx hp (by simp only [decide_eq_false hn, Bool.or_false]; rfl)

/-- Every step comes by its flags in one of these ways. -/
theorem flagStep_of_step {s s' : State} (h : step s = .next s') : FlagStep s s' := by
  obtain ⟨l, hl⟩ := nextInput_rest s
  obtain ⟨hx, rfl⟩ | ⟨hx, rfl⟩ | ⟨t, ht, he⟩ := step_cases h
  · rw [hl]
    by_cases hp : s.phase = .finish
    · rw [seqStep_finish (s := { s with inputs := l }) hp]
      exact flagStep_of_complete hx hp
    · rw [seqStep_frame_of_ne_finish (s := { s with inputs := l }) hp]
      exact .kept rfl
  · exact .reset hx rfl
  · rw [hl] at he
    exact flagStep_of_transaction (nextInstr_of_transaction ht) he

/-! Who sets a flag -/

/-- A narrowed weight is stored as one of the two extremes (R88). -/
theorem bits32_weightSat_of_narrowed {x : Raw24} {p : Snapshot} (h : weightSat x p ≠ weight x p) :
    bits32 (weightSat x p) = 0x7FFFFFFF#32 ∨ bits32 (weightSat x p) = 0x80000000#32 := by
  obtain ⟨habove, hbelow, -⟩ := saturationOnlyBelowShiftEight.1 x p
  rw [weightSat, Ne, sat32_eq_self_iff] at h
  by_cases hw : 2147483647 < weight x p
  · exact .inl (habove hw)
  · exact .inr (hbelow (by omega))

/-- DONE rises at a completion or by a command that ends in its issue step. -/
theorem done_raised {s s' : State} (h : FlagStep s s') (h0 : s.flags.done = false) (h1 : s'.flags.done = true) :
    ((nextInput s).1 = .seq ∧ s.phase = .finish)
      ∨ ∃ v, nextInstr s = some (.wrCmd v)
        ∧ ((s.phase = .wait ∧ v = 0x0000000F#32)
          ∨ (s.phase = .idle ∧ (v = 0x00000000#32 ∨ v = 0x0000000F#32 ∨ (∃ e, decodeCmd v = .error e)
              ∨ (v = 0x00000004#32 ∧ s.ctrl.cal = false)))) := by
  cases h with
  | completed hx hp hf => exact .inl ⟨hx, hp⟩
  | narrowed hx hp ho hw hf hr => exact .inl ⟨hx, hp⟩
  | ended v hi hp hv hf => exact .inr ⟨v, hi, .inr ⟨hp, hv.imp_right .inl⟩⟩
  | uncalibrated hi hp hc hf hr => exact .inr ⟨_, hi, .inr ⟨hp, .inr (.inr (.inr ⟨rfl, hc⟩))⟩⟩
  | reserved v hi hp hd hf => exact .inr ⟨v, hi, .inr ⟨hp, .inr (.inr (.inl hd))⟩⟩
  | aborted hi hp hf => exact .inr ⟨_, hi, .inl ⟨hp, rfl⟩⟩
  | kept hf | reset _ hf | cleared _ _ hf | overrun _ _ _ _ hf => simp [hf, Sticky.set, Sticky.clear, h0] at h1

/-- UNCAL rises by a MEASURE in IDLE with CAL = 0. -/
theorem uncal_raised {s s' : State} (h : FlagStep s s') (h0 : s.flags.uncal = false) (h1 : s'.flags.uncal = true) :
    nextInstr s = some (.wrCmd 0x00000004#32) ∧ s.phase = .idle ∧ s.ctrl.cal = false ∧ s'.result = 0 := by
  cases h with
  | uncalibrated hi hp hc hf hr => exact ⟨hi, hp, hc, hr⟩
  | kept hf | reset _ hf | cleared _ _ hf | completed _ _ hf | narrowed _ _ _ _ hf | ended _ _ _ _ hf
    | reserved _ _ _ _ hf | aborted _ _ hf | overrun _ _ _ _ hf =>
    simp [hf, Sticky.set, Sticky.clear, h0] at h1

/-- OVERRUN rises by a word other than ABORT's while BUSY. -/
theorem overrun_raised {s s' : State} (h : FlagStep s s') (h0 : s.flags.overrun = false) (h1 : s'.flags.overrun = true) :
    ∃ v, nextInstr s = some (.wrCmd v) ∧ v ≠ 0x0000000F#32 ∧ s.phase ≠ .idle := by
  cases h with
  | overrun v hi hp hv hf => exact ⟨v, hi, hv, hp⟩
  | kept hf | reset _ hf | cleared _ _ hf | completed _ _ hf | narrowed _ _ _ _ hf | ended _ _ _ _ hf
    | uncalibrated _ _ _ hf | reserved _ _ _ _ hf | aborted _ _ hf =>
    simp [hf, Sticky.set, Sticky.clear, h0] at h1

/-- ILLEGAL rises by a reserved word in IDLE. -/
theorem illegal_raised {s s' : State} (h : FlagStep s s') (h0 : s.flags.illegal = false) (h1 : s'.flags.illegal = true) :
    ∃ v e, nextInstr s = some (.wrCmd v) ∧ decodeCmd v = .error e ∧ s.phase = .idle := by
  cases h with
  | reserved v hi hp hd hf =>
    obtain ⟨e, hd⟩ := hd
    exact ⟨v, e, hi, hd, hp⟩
  | kept hf | reset _ hf | cleared _ _ hf | completed _ _ hf | narrowed _ _ _ _ hf | ended _ _ _ _ hf
    | uncalibrated _ _ _ hf | aborted _ _ hf | overrun _ _ _ _ hf =>
    simp [hf, Sticky.set, Sticky.clear, h0] at h1

/-- ABORTED rises by ABORT in WAIT. -/
theorem aborted_raised {s s' : State} (h : FlagStep s s') (h0 : s.flags.aborted = false) (h1 : s'.flags.aborted = true) :
    nextInstr s = some (.wrCmd 0x0000000F#32) ∧ s.phase = .wait := by
  cases h with
  | aborted hi hp hf => exact ⟨hi, hp⟩
  | kept hf | reset _ hf | cleared _ _ hf | completed _ _ hf | narrowed _ _ _ _ hf | ended _ _ _ _ hf
    | uncalibrated _ _ _ hf | reserved _ _ _ _ hf | overrun _ _ _ _ hf =>
    simp [hf, Sticky.set, Sticky.clear, h0] at h1

/-- SAT rises at the completion of a MEASURE that stores an extreme. -/
theorem sat_raised {s s' : State} (h : FlagStep s s') (h0 : s.flags.sat = false) (h1 : s'.flags.sat = true) :
    (nextInput s).1 = .seq ∧ s.phase = .finish ∧ s.snap.op = .measure
      ∧ (s'.result = 0x7FFFFFFF#32 ∨ s'.result = 0x80000000#32) := by
  cases h with
  | narrowed hx hp ho hw hf hr => exact ⟨hx, hp, ho, hr ▸ bits32_weightSat_of_narrowed hw⟩
  | kept hf | reset _ hf | cleared _ _ hf | completed _ _ hf | ended _ _ _ _ hf | uncalibrated _ _ _ hf
    | reserved _ _ _ _ hf | aborted _ _ hf | overrun _ _ _ _ hf =>
    simp [hf, Sticky.set, Sticky.clear, h0] at h1

/-- Settles O50: flag by flag, from what a step can do to the flags. -/
theorem flagsAreSetOnlyByTheirCause : Obligations.FlagsAreSetOnlyByTheirCause := by
  intro s s' h
  have hf := flagStep_of_step h
  exact ⟨done_raised hf, uncal_raised hf, overrun_raised hf, illegal_raised hf, aborted_raised hf, sat_raised hf⟩

/-- Settles O27: of the four conditions each answer of the command decoder raises at most one. -/
theorem oneCommandWriteRaisesAtMostOneCondition : Obligations.OneCommandWriteRaisesAtMostOneCondition := by
  intro s v
  obtain ⟨-, -, he⟩ | ⟨-, op, -, he⟩ | ⟨-, -, -, he⟩ | ⟨-, -, -, he⟩ | ⟨-, -, he⟩ | ⟨-, -, he⟩ | ⟨-, -, he⟩ | ⟨-, -, he⟩ :=
    execWrCmd_spec v s
  all_goals
    refine ⟨_, he, ?_, rfl⟩
    simp [reservedWord, Sticky.set, Bool.toNat_le]

/-! Who clears a flag -/

/-- The sticky flag that STATUS bit `b` shows (R19). -/
def stickyBit (x : Sticky) (b : Nat) : Bool := [x.done, x.uncal, x.overrun, x.illegal, x.aborted, x.sat].getD (b - 2) false

/-- STATUS bits 7:2 show the sticky flags. -/
theorem readStatus_sticky (s : State) {b : Nat} (hlo : 2 ≤ b) (hhi : b ≤ 7) :
    (readReg .status s).getLsbD b = stickyBit s.flags b := by
  rw [readStatus_getLsbD]
  interval_cases b <;> rfl

/-- A clear takes away the flags whose bits are 1. -/
theorem stickyBit_clear (v : Word) (x : Sticky) {b : Nat} (hlo : 2 ≤ b) (hhi : b ≤ 7) :
    stickyBit (x.clear v) b = (stickyBit x b && !v.getLsbD b) := by
  interval_cases b <;> rfl

/-- A flag set keeps every flag that was set. -/
theorem stickyBit_set (f : Flag) (x : Sticky) {b : Nat} (hlo : 2 ≤ b) (hhi : b ≤ 7) (h : stickyBit x b = true) :
    stickyBit (x.set f) b = true := by
  obtain ⟨hdone, huncal, hoverrun, hillegal, haborted, hsat⟩ := set_monotone f x
  interval_cases b
  · exact hdone h
  · exact huncal h
  · exact hoverrun h
  · exact hillegal h
  · exact haborted h
  · exact hsat h

/-- A sticky flag falls only by a WR STATUS that names it, or at reset. -/
theorem sticky_fallen {s s' : State} (h : FlagStep s s') (hr : (nextInput s).1 ≠ .rst) {b : Nat} (hlo : 2 ≤ b)
    (hhi : b ≤ 7) (h0 : stickyBit s.flags b = true) (h1 : stickyBit s'.flags b = false) :
    ∃ v, nextInstr s = some (.wrStatus v) ∧ v.getLsbD b = true := by
  have hset (f : Flag) := stickyBit_set f s.flags hlo hhi h0
  have hset2 (f : Flag) := stickyBit_set f (s.flags.set .done) hlo hhi (hset .done)
  have hfallen : ¬ stickyBit s'.flags b = true := by simp [h1]
  cases h with
  | cleared v hi hf =>
    rw [hf, stickyBit_clear v s.flags hlo hhi, h0] at h1
    exact ⟨v, hi, by simpa using h1⟩
  | reset hx hf => exact absurd hx hr
  | kept hf => exact absurd (hf ▸ h0) hfallen
  | completed _ _ hf | ended _ _ _ _ hf => exact absurd (hf ▸ hset .done) hfallen
  | narrowed _ _ _ _ hf => exact absurd (hf ▸ hset2 .sat) hfallen
  | uncalibrated _ _ _ hf => exact absurd (hf ▸ hset2 .uncal) hfallen
  | reserved _ _ _ _ hf => exact absurd (hf ▸ hset2 .illegal) hfallen
  | aborted _ _ hf => exact absurd (hf ▸ hset2 .aborted) hfallen
  | overrun _ _ _ _ hf => exact absurd (hf ▸ hset .overrun) hfallen

/-! CAL and the gain bookkeeping -/

/-- CAL falls only by a WR CTRL without it or a WR SCALE with K = 0, or at reset (R74, R78). -/
theorem cal_fallen {s s' : State} (hs : s.ctrl.cal = true → s.scale.k ≠ 0) (h : step s = .next s')
    (hr : (nextInput s).1 ≠ .rst) (h0 : s.ctrl.cal = true) (h1 : s'.ctrl.cal = false) :
    (∃ v, nextInstr s = some (.wrCtrl v) ∧ v.getLsbD 1 = false)
      ∨ ∃ v, nextInstr s = some (.wrScale v) ∧ v.toNat % 65536 = 0 := by
  obtain ⟨hc, -⟩ | ⟨hx, -⟩ | ⟨v, hi, hc, -⟩ | ⟨v, hi, hc, -⟩ := step_ctrl_scale_cases h
  · rw [hc, h0] at h1
    cases h1
  · exact absurd hx hr
  · rw [hc, bne_iff_ne.mpr (hs h0), Bool.and_true] at h1
    exact .inl ⟨v, hi, h1⟩
  · rw [hc] at h1
    exact .inr ⟨v, hi, (kField_eq_zero_iff v).mp (by simpa [h0] using h1)⟩

/-- CAL rises only by a WR CTRL with it while K is not 0 (R74). -/
theorem cal_raised {s s' : State} (h : step s = .next s') (h0 : s.ctrl.cal = false) (h1 : s'.ctrl.cal = true) :
    ∃ v, nextInstr s = some (.wrCtrl v) ∧ v.getLsbD 1 = true ∧ s.scale.k ≠ 0 := by
  obtain ⟨hc, -⟩ | ⟨-, hc, -⟩ | ⟨v, hi, hc, -⟩ | ⟨v, hi, hc, -⟩ := step_ctrl_scale_cases h
  · rw [hc, h0] at h1
    cases h1
  · simp [hc] at h1
  · rw [hc] at h1
    exact ⟨v, hi, by simpa [calField] using h1⟩
  · simp [hc, h0] at h1

/-- No transaction writes the gain bookkeeping. -/
theorem exec_decodeBus_book {t : Transaction} {s u : State} (h : exec (decodeBus t) s = .next u) : u.book = s.book := by
  obtain ⟨v, hd⟩ | hc := wrCmd_or_commandless t
  · rw [hd] at h
    obtain hv | ⟨-, op, -, rfl⟩ | ⟨-, hv⟩ | ⟨-, -, hv⟩ := execWrCmd_seqView h
    · exact congrArg SeqView.book hv
    · rfl
    · exact congrArg SeqView.book hv
    · exact congrArg SeqView.book hv
  · obtain ⟨u', hu, hv, -⟩ := exec_commandless hc s
    cases h.symm.trans hu
    exact congrArg SeqView.book hv

/-- The gain bookkeeping moves only at a completion, or at reset (R69). -/
theorem finish_of_book_ne {s s' : State} (h : step s = .next s') (hr : (nextInput s).1 ≠ .rst) (hb : s'.book ≠ s.book) :
    (nextInput s).1 = .seq ∧ s.phase = .finish := by
  obtain ⟨l, hl⟩ := nextInput_rest s
  obtain ⟨hx, rfl⟩ | ⟨hx, -⟩ | ⟨t, -, he⟩ := step_cases h
  · rw [hl] at hb
    exact ⟨hx, finish_of_seqStep_ne State.book (fun _ _ _ _ _ => rfl) (s := { s with inputs := l }) hb⟩
  · exact absurd hx hr
  · rw [hl] at he
    exact absurd (exec_decodeBus_book he) hb

/-- STATUS bits 11:8 show the gain bookkeeping. -/
theorem readStatus_book {s s' : State} (h : s'.book = s.book) {b : Nat} (hlo : 8 ≤ b) (hhi : b ≤ 11) :
    (readReg .status s').getLsbD b = (readReg .status s).getLsbD b := by
  rw [readStatus_getLsbD, readStatus_getLsbD, statusBits, statusBits, h]
  interval_cases b <;> rfl

/-- Settles O51: the sticky flags from what a step can do to them, CAL from who writes CTRL and SCALE, and the bookkeeping from
the completion. -/
theorem flagsAreClearedOnlyByTheirCause : Obligations.FlagsAreClearedOnlyByTheirCause := by
  intro s s' hs h hr
  refine ⟨fun b hlo hhi h0 h1 => ?_, cal_fallen hs h hr, cal_raised h, fun b hlo hhi hne => ?_⟩
  · rw [readStatus_sticky _ hlo hhi] at h0 h1
    exact sticky_fallen (flagStep_of_step h) hr hlo hhi h0 h1
  · exact finish_of_book_ne h hr fun hb => hne (readStatus_book hb hlo hhi)

/-! The interrupt line -/

/-- Every condition but OVERRUN comes with DONE (R119). -/
theorem done_of_condition {s s' : State} (h : FlagStep s s')
    (hc : (s.flags.uncal = false ∧ s'.flags.uncal = true) ∨ (s.flags.illegal = false ∧ s'.flags.illegal = true)
      ∨ (s.flags.aborted = false ∧ s'.flags.aborted = true) ∨ (s.flags.sat = false ∧ s'.flags.sat = true)) :
    s'.flags.done = true := by
  cases h with
  | completed _ _ hf | ended _ _ _ _ hf | narrowed _ _ _ _ hf | uncalibrated _ _ _ hf | reserved _ _ _ _ hf
    | aborted _ _ hf =>
    rw [hf]
    rfl
  | kept hf | reset _ hf | cleared _ _ hf | overrun _ _ _ _ hf =>
    obtain ⟨h0, h1⟩ | ⟨h0, h1⟩ | ⟨h0, h1⟩ | ⟨h0, h1⟩ := hc
    all_goals simp [hf, Sticky.set, Sticky.clear, h0] at h1

/-- Settles O52: the line by the two bits as they read, the conditions by what raises them, and the two ways to lower it. -/
theorem interruptIsDoneAndEnabled : Obligations.InterruptIsDoneAndEnabled := by
  refine ⟨fun s => ?_, fun s s' h hc => ?_, fun s v => ⟨fun hv => ⟨_, exec_wrStatus v s, ?_⟩, fun hv => ⟨_, rfl, ?_⟩⟩⟩
  · rw [readStatus_getLsbD, readReg, ctrlWord_getLsbD, irq, Bool.and_eq_true]
    rfl
  · have hd := done_of_condition (flagStep_of_step h) hc
    exact ⟨hd, by rw [irq, hd, Bool.true_and]⟩
  · rw [getLsbD_eq_decide] at hv
    exact irq_clear_done (of_decide_eq_true hv) s
  · rw [irq, ieField, hv, Bool.and_false]

end Sys2Proof.Proofs
end

section
/-! PROOFS. The SEQ agent step by step (spec/40_bitreader.md): the poll (R60), the clock edges (R62, R63), the completion (R69),
and the time the pulse train holds (R145). -/

namespace Sys2Proof.Proofs

open Sys2Proof Sys2Proof.Machine Sys2Proof.Laws

/-! The poll -/

/-- Where no level is presented a sample is a free draw. -/
theorem sampleDout_nil {s : State} (h : s.dev.levels = []) :
    sampleDout s = (Config.freeDout s.dev.draws, { s with dev := { s.dev with draws := s.dev.draws + 1 } }) := by
  unfold sampleDout; rw [h]

/-- A poll by the sample it reads: 1 stays in WAIT, 0 starts the pulse train. -/
theorem seqStep_poll {s : State} (hp : s.phase = .wait) {b : Bool} {d : Device}
    (h : sampleDout s = (b, { s with dev := d })) :
    seqStep s = { s with phase := if b then .wait else .rise 0, dev := d } := by
  rw [seqStep_wait hp, pollReady, h]
  cases b
  · rfl
  · simp [← hp]

/-- A turn that leaves WAIT enters RISE(0). -/
theorem seqStep_leaves_wait {s : State} (hp : s.phase = .wait) (hn : (seqStep s).phase ≠ .wait) :
    (seqStep s).phase = .rise 0 := by
  obtain ⟨d, hd, -⟩ := sampleDout_spec s
  have he := seqStep_poll hp (b := (sampleDout s).1) (d := d) (by rw [← hd])
  rw [he] at hn ⊢
  exact if_neg fun hb => hn (if_pos hb)

/-- A transaction that leaves WAIT is ABORT, and it enters IDLE. -/
theorem exec_decodeBus_leaves_wait {s u : State} {t : Transaction} (hp : s.phase = .wait)
    (he : exec (decodeBus t) s = .next u) (hn : u.phase ≠ .wait) :
    decodeBus t = .wrCmd 0x0000000F#32 ∧ u.phase = .idle := by
  have hkept : seqView u ≠ seqView s := fun hv => hn ((congrArg SeqView.phase hv).trans hp)
  obtain ⟨v, hd⟩ | hc := wrCmd_or_commandless t
  · rw [hd] at he ⊢
    obtain hv | ⟨hi, -⟩ | ⟨hi, -⟩ | ⟨-, rfl, hv⟩ := execWrCmd_seqView he
    · exact absurd hv hkept
    · exact absurd (hp.symm.trans hi) (by decide)
    · exact absurd (hp.symm.trans hi) (by decide)
    · exact ⟨rfl, congrArg SeqView.phase hv⟩
  · obtain ⟨u', hu, hv, -⟩ := exec_commandless hc s
    cases he.symm.trans hu
    exact absurd hv hkept

/-- Settles O28: the poll by its sample, and the three ways out of WAIT by what a step can do. -/
theorem pollStartsTrainOnLowLevel : Obligations.PollStartsTrainOnLowLevel := by
  refine ⟨fun s later hp hi => ⟨fun b rest hl => ?presented, fun hl => ?free⟩, fun s s' hp h hn => ?leaves⟩
  case presented => rw [step_seq hi, seqStep_poll hp (sampleDout_cons hl)]
  case free => rw [step_seq hi, seqStep_poll hp (sampleDout_nil hl)]
  case leaves =>
    obtain ⟨l, hl⟩ := nextInput_rest s
    obtain ⟨hx, rfl⟩ | ⟨hx, rfl⟩ | ⟨t, ht, he⟩ := step_cases h
    · rw [hl] at hn ⊢
      exact .inl ⟨hx, seqStep_leaves_wait (s := { s with inputs := l }) hp hn⟩
    · exact .inr (.inr ⟨hx, rfl⟩)
    · rw [hl] at he
      obtain ⟨hd, hu⟩ := exec_decodeBus_leaves_wait (s := { s with inputs := l }) hp he hn
      exact .inr (.inl ⟨(nextInstr_of_transaction ht).trans (congrArg some hd), hu⟩)

/-! The clock edges -/

/-- The falling edge of a gain pulse samples nothing. -/
theorem seqStep_fall_gain {s : State} {k : Nat} (hp : s.phase = .fall k) (hk : Config.dataClocks ≤ k) :
    seqStep s = { s with sck := false, phase := afterPulse k s.snap.gain } := by
  rw [seqStep_fall hp, lowerClock, if_neg (Nat.not_lt.mpr hk)]
  rfl

/-- The falling edge of a data pulse latches the sample it takes. -/
theorem seqStep_fall_data {s : State} {k : Nat} (hp : s.phase = .fall k) (hk : k < Config.dataClocks) {b : Bool} {d : Device}
    (h : sampleDout s = (b, { s with dev := d })) :
    seqStep s = { s with
      sck := false, phase := afterPulse k s.snap.gain, shreg := setBit s.shreg (23 - k) b, dev := d } := by
  rw [seqStep_fall hp, lowerClock, if_pos hk, captureBit, h]
  rfl

/-- Settles O29: the rising edge, the falling edge of a gain pulse, and that of a data pulse with the bit it latches. -/
theorem clockEdgesCaptureMsbFirst : Obligations.ClockEdgesCaptureMsbFirst := by
  intro s k later hi
  rw [step_seq hi]
  refine ⟨fun hp => ?rise, fun hp hk => ?gain, fun hp hk => ?data⟩
  case rise => rw [seqStep_pulse_high hp]
  case gain =>
    rw [seqStep_fall_gain hp hk]
    rfl
  case data =>
    have hbits (b : Bool) : ∀ i < 24, (setBit s.shreg (23 - k) b).getLsbD i = if i = 23 - k then b else s.shreg.getLsbD i :=
      fun i _ => setBit_getLsbD s.shreg (23 - k) i b (by omega)
    cases hl : s.dev.levels with
    | cons b rest =>
      refine ⟨b, _, _, .inl ⟨rest, rfl, rfl⟩, ?_, hbits b⟩
      rw [seqStep_fall_data hp hk (sampleDout_cons hl)]
      rfl
    | nil =>
      refine ⟨_, _, _, .inr ⟨rfl, rfl, rfl⟩, ?_, hbits _⟩
      rw [seqStep_fall_data hp hk (sampleDout_nil hl)]
      rfl

/-! The completion -/

/-- The rounding term as R83 writes it. -/
theorem roundTerm_eq (s : Shift) : roundTerm s = if s.toNat = 0 then 0 else 2 ^ (s.toNat - 1) := by
  split
  · next h => exact roundTerm_of_shift_zero h
  · next h =>
    have hs : s ≠ 0 := fun h0 => h (by rw [h0]; rfl)
    rw [roundTerm, if_neg hs, Nat.cast_pow, Nat.cast_ofNat]

/-- The clamp in the order of the statement's `max` and `min`. -/
theorem sat32_eq (w : Int) : sat32 w = max (-2 ^ 31) (min w (2 ^ 31 - 1)) := by
  rw [sat32]
  omega

/-- Settles O30: the completion's equation by command, the weight being the only integer that the two bounds allow; and the
frame of every turn before it. -/
theorem completionWritesAllResultsAtOnce : Obligations.CompletionWritesAllResultsAtOnce := by
  refine ⟨fun s later hp hi => ⟨_, step_seq hi, ?_⟩, fun s hp => ?_⟩
  · rw [seqStep_finish hp, complete_eq]
    refine ⟨rfl, fun ho => ?_, fun ho => ?_, fun ho => ?_, fun ho w hlo hhi => ?_⟩
    · simp [ho, bits32, sampleOf]
    · simp [ho]
    · simp [ho, bits32, difference, sampleOf]
    · have hw : weight s.shreg s.snap = w := by
        rw [weight_eq_iff, accumulator, roundTerm_eq]
        exact ⟨hlo, hhi⟩
      have hsat : sat32 w ≠ w ↔ w < -2 ^ 31 ∨ 2 ^ 31 - 1 < w := by
        rw [Ne, sat32_eq_self_iff]
        omega
      simp only [ho, weightSat, hw, hsat, if_true, true_and]
      rw [bits32, sat32_eq]
      simp
  · rw [seqStep_frame_of_ne_finish hp]
    exact ⟨rfl, rfl, rfl, rfl, rfl, rfl⟩

/-! The hold time of the pulse train (R145) -/

/-- A pulse holds high and then low. -/
theorem seqClocks_pulse {k : Nat} {s : State} (hp : s.phase = .rise k) (m : Nat) :
    seqClocks (2 * (m + 1)) s = 2 * Config.tHoldCycles + seqClocks (2 * m) (seqStep (seqStep s)) := by
  have hh : (seqStep s).phase = .fall k := by rw [seqStep_pulse_high hp]
  simp only [Nat.mul_succ, seqClocks, hp, hh, stepClocks]
  omega

/-- With `m` pulses to come, the first of them pulse `k`, the pulse train holds twice for each. -/
theorem seqClocks_pulseTrain (m : Nat) {k : Nat} {s : State} (hm : k + m = totalPulses s.snap.gain)
    (hp : s.phase = if k < totalPulses s.snap.gain then .rise k else .finish) :
    seqClocks (2 * m) s = 2 * m * Config.tHoldCycles := by
  induction m generalizing k s with
  | zero => simp [seqClocks]
  | succ m ih =>
    rw [if_pos (by omega)] at hp
    obtain ⟨hphase, -, hsnap⟩ := seqStep_pulse hp
    rw [← hsnap] at hm hphase
    rw [seqClocks_pulse hp, ih (k := k + 1) (by omega) hphase]
    ring

/-- `T_HOLD_CYCLES` is at least one microsecond at `F_CLK` (R5). -/
theorem fClk_le : Config.fClk ≤ Config.megahertz * Config.tHoldCycles :=
  Nat.mod_lt _ (Nat.mul_pos (by decide) (Nat.succ_pos _))

/-- Settles O34: two holds a pulse, each of at least a microsecond. -/
theorem pulseTrainHoldTime : Obligations.PulseTrainHoldTime := by
  intro s n hp hn
  have hm : n = totalPulses s.snap.gain := by rw [hn]; cases s.snap.gain <;> rfl
  have hpos := totalPulses_bounds s.snap.gain
  have hclocks : seqClocks (2 * n) s = 2 * n * Config.tHoldCycles :=
    seqClocks_pulseTrain n (k := 0) (by rw [hm, Nat.zero_add]) (by rw [hp, if_pos (by omega)])
  refine ⟨hclocks, ?_⟩
  calc 2 * n * Config.fClk ≤ 2 * n * (Config.megahertz * Config.tHoldCycles) := Nat.mul_le_mul_left _ fClk_le
    _ = Config.megahertz * seqClocks (2 * n) s := by rw [hclocks]; ring

end Sys2Proof.Proofs
end

section
/-! PROOFS. Whole transactions (spec/40_bitreader.md): the sample the pulse train captures, the results of a transaction run alone
(R59) or after another (R81), and a transaction under the host's reads and writes (R44, R146). -/

namespace Sys2Proof.Proofs

open Sys2Proof Sys2Proof.Machine Sys2Proof.Laws

/-! The difference (R82) -/

/-- Settles O36: the difference fits 25 signed bits, so the 32 bits of RESULT hold it. -/
theorem differenceIsExact : Obligations.DifferenceIsExact := by
  intro x p
  obtain ⟨hlo, hhi⟩ := abs_le.mp (abs_difference_le x p)
  exact ⟨toInt_bits32 (by omega) (by omega), hlo, hhi⟩

/-- A sample at the offset is no difference. -/
theorem difference_self {x : Raw24} {p : Snapshot} (h : p.ofs = x) : difference x p = 0 := by
  rw [difference, h, sub_self]

/-! The captured bits (R39, R63) -/

/-- `r` holds the first `k` bits of `x` in sending order: its top `k` bits are those of `x`. -/
def Captured (k : Nat) (x r : Raw24) : Prop := ∀ i, 24 - k ≤ i → r.getLsbD i = x.getLsbD i

theorem captured_zero (x r : Raw24) : Captured 0 x r := fun i hi => by
  rw [BitVec.getLsbD_of_ge r i hi, BitVec.getLsbD_of_ge x i hi]

/-- Latching bit `23 - k` of `x` captures one bit more. -/
theorem captured_succ {k : Nat} {x r : Raw24} (h : Captured k x r) (hk : k < 24) :
    Captured (k + 1) x (setBit r (23 - k) (x.getLsbD (23 - k))) := by
  intro i hi
  rw [setBit_getLsbD _ _ _ _ (by omega)]
  split
  · next he => rw [he]
  · exact h i (by omega)

/-- After 24 bits the sample is captured. -/
theorem eq_of_captured {k : Nat} {x r : Raw24} (h : Captured k x r) (hk : 24 ≤ k) : r = x :=
  BitVec.eq_of_getLsbD_eq fun i _ => h i (by omega)

/-- The level at data pulse `k` is bit `23 - k`. -/
theorem msbFirst_drop {k : Nat} (x : Raw24) (hk : k < 24) :
    (msbFirst x).drop k = x.getLsbD (23 - k) :: (msbFirst x).drop (k + 1) := by
  rw [List.drop_eq_getElem_cons (by simpa [msbFirst] using hk)]
  simp [msbFirst]

/-- After 24 pulses the sample is sent. -/
theorem msbFirst_drop_of_ge {k : Nat} (x : Raw24) (hk : 24 ≤ k) : (msbFirst x).drop k = [] :=
  List.drop_of_length_le (by simpa [msbFirst] using hk)

/-! The pulse train -/

/-- A data pulse latches the presented level. -/
theorem seqStep_pulse_data {k : Nat} {s : State} (hp : s.phase = .rise k) (hk : k < 24) {b : Bool} {rest : List Bool}
    (hl : s.dev.levels = b :: rest) :
    seqStep (seqStep s) = { s with
      phase := afterPulse k s.snap.gain, sck := false, shreg := setBit s.shreg (23 - k) b
      dev := { s.dev with levels := rest } } := by
  rw [seqStep_pulse_high hp]
  exact seqStep_fall_data rfl hk (sampleDout_cons hl)

/-- A gain pulse leaves the shift register and the device as they are. -/
theorem seqStep_pulse_gain {k : Nat} {s : State} (hp : s.phase = .rise k) (hk : 24 ≤ k) :
    seqStep (seqStep s) = { s with phase := afterPulse k s.snap.gain, sck := false } := by
  rw [seqStep_pulse_high hp]
  exact seqStep_fall_gain rfl hk

/-- From pulse `k`, with `m` more after it, a device that sends the rest of X leaves X in the shift register. -/
theorem seqSteps_pulseTrain (m : Nat) {k : Nat} {s : State} {x : Raw24} {rest : List Bool}
    (hm : k + m + 1 = totalPulses s.snap.gain) (hp : s.phase = .rise k)
    (hl : s.dev.levels = (msbFirst x).drop k ++ rest) (hx : Captured k x s.shreg) :
    seqSteps (2 * (m + 1)) s = { s with
      phase := .finish, sck := false, shreg := x, dev := { s.dev with levels := rest } } := by
  induction m generalizing k s with
  | zero =>
    have hk : 24 ≤ k := by have := totalPulses_bounds s.snap.gain; omega
    have hlast : afterPulse k s.snap.gain = .finish := if_neg (by omega)
    obtain rfl := eq_of_captured hx hk
    obtain rfl : s.dev.levels = rest := by rw [hl, msbFirst_drop_of_ge _ hk, List.nil_append]
    exact (seqStep_pulse_gain hp hk).trans (by rw [hlast])
  | succ m ih =>
    have hnext : afterPulse k s.snap.gain = .rise (k + 1) := if_pos (by omega)
    have hsplit : seqSteps (2 * (m + 1 + 1)) s = seqSteps (2 * (m + 1)) (seqStep (seqStep s)) := rfl
    rw [hsplit]
    by_cases hk : k < 24
    · rw [msbFirst_drop x hk] at hl
      rw [seqStep_pulse_data hp hk hl, hnext, ih (k := k + 1) (by rw [← hm]; omega) rfl rfl (captured_succ hx hk)]
    · have hk := Nat.not_lt.mp hk
      obtain rfl := eq_of_captured hx hk
      rw [msbFirst_drop_of_ge _ hk] at hl
      rw [seqStep_pulse_gain hp hk, hnext,
        ih (k := k + 1) (s := { s with phase := .rise (k + 1), sck := false }) (by rw [← hm]; omega) rfl
          (by rw [msbFirst_drop_of_ge _ (by omega)]; exact hl) (fun _ _ => rfl)]

/-! A transaction run alone -/

/-- The state a transaction ends in: the completion, with `x` captured and the levels `rest` still to come. -/
def transactionEnd (x : Raw24) (rest : List Bool) (s : State) : State :=
  complete { s with phase := .finish, sck := false, shreg := x, dev := { s.dev with levels := rest } }

/-- The state a transaction ends in, written out. -/
theorem transactionEnd_eq (x : Raw24) (rest : List Bool) (s : State) :
    transactionEnd x rest s = { s with
      phase := .idle, sck := false, shreg := x, raw := x
      book := ⟨s.snap.gain, true, s.book.pgain, s.book.pgainV⟩
      dev := ⟨.selected s.snap.gain, rest, s.dev.draws⟩
      ofs := if s.snap.op = .tare then x else s.ofs
      result :=
        match s.snap.op with
        | .readRaw => bits32 (sampleOf x)
        | .tare => s.result
        | .readCal => bits32 (difference x s.snap)
        | .measure => bits32 (weightSat x s.snap)
      lastGrams := if s.snap.op = .measure then bits32 (weightSat x s.snap) else s.lastGrams
      flags := { s.flags with
        done := true
        sat := s.flags.sat || decide (s.snap.op = .measure ∧ weightSat x s.snap ≠ weight x s.snap) } } :=
  complete_eq _

/-- The turns of a transaction: the polls that read 1, the one that reads 0, two for each pulse, and the completion. -/
theorem seqSteps_transaction {s : State} {polls : Nat} {x : Raw24} {rest : List Bool} (hp : s.phase = .wait)
    (hl : s.dev.levels = presents polls x ++ rest) :
    seqSteps (transactionSteps polls s.snap.gain) s = transactionEnd x rest s := by
  obtain ⟨m, hm⟩ : ∃ m, totalPulses s.snap.gain = m + 1 :=
    Nat.exists_eq_succ_of_ne_zero (by have := totalPulses_bounds s.snap.gain; omega)
  have hpolls : seqSteps polls s = { s with dev := { s.dev with levels := false :: (msbFirst x ++ rest) } } :=
    seqSteps_wait_not_ready polls hp (by rw [hl, presents, List.append_assoc]; rfl)
  have hready : seqSteps 1 { s with dev := { s.dev with levels := false :: (msbFirst x ++ rest) } }
      = { s with phase := .rise 0, dev := { s.dev with levels := msbFirst x ++ rest } } :=
    seqStep_poll (s := { s with dev := { s.dev with levels := false :: (msbFirst x ++ rest) } }) hp (sampleDout_cons rfl)
  have htrain : seqSteps (2 * (m + 1)) { s with phase := .rise 0, dev := { s.dev with levels := msbFirst x ++ rest } }
      = { s with phase := .finish, sck := false, shreg := x, dev := { s.dev with levels := rest } } :=
    seqSteps_pulseTrain m (k := 0) (by rw [hm]; omega) rfl rfl (captured_zero x s.shreg)
  rw [transactionSteps, hm, seqSteps_add, seqSteps_add, seqSteps_add, hpolls, hready, htrain]
  exact seqStep_finish (s := { s with phase := .finish, sck := false, shreg := x, dev := { s.dev with levels := rest } }) rfl

/-- Settles O40: the turns end at the completion with X captured. -/
theorem transactionDeliversPresentedSample : Obligations.TransactionDeliversPresentedSample := by
  intro s polls x rest later hp hi hl
  rw [run_seq_inputs _ s later hi]
  exact congrArg Host.Outcome.next
    ((seqSteps_transaction (s := { s with inputs := later }) hp hl).trans (transactionEnd_eq x rest _))

/-! One command after another (R81) -/

/-- A command issued in IDLE and the turns of its transaction end as the transaction does. -/
theorem run_command {s : State} {i : Instr} {op : Op} {polls : Nat} {x : Raw24} {rest : List Bool} {later : List Input}
    (hc : (i, op) ∈ [(Instr.readRaw, Op.readRaw), (Instr.tare, Op.tare), (Instr.readCal, Op.readCal)])
    (hp : s.phase = .idle)
    (hi : s.inputs = .host (encode i).onPort :: (List.replicate (transactionSteps polls s.ctrl.gain) .seq ++ later))
    (hl : s.dev.levels = presents polls x ++ rest) :
    run (1 + transactionSteps polls s.ctrl.gain) s
      = .next (transactionEnd x rest { beginTransaction op s with inputs := later }) := by
  have hissue : step s = .next { beginTransaction op s with
      inputs := List.replicate (transactionSteps polls s.ctrl.gain) .seq ++ later } := by
    rw [stepRunsEncodedInstruction s i _ hi]
    exact exec_deviceCommand_idle
      (s := { s with inputs := List.replicate (transactionSteps polls s.ctrl.gain) .seq ++ later }) hp hc
  rw [Nat.add_comm, run_succ hissue, run_seq_inputs _ _ later rfl]
  exact congrArg Host.Outcome.next (seqSteps_transaction (s := { beginTransaction op s with inputs := later }) rfl hl)

/-- A TARE leaves the block idle with OFFSET = X, under the same CTRL. -/
theorem transactionEnd_tare (x : Raw24) (rest : List Bool) (later : List Input) (s : State) :
    let t := transactionEnd x rest { beginTransaction .tare s with inputs := later }
    t.phase = .idle ∧ t.ofs = x ∧ t.ctrl = s.ctrl ∧ t.inputs = later ∧ t.dev.levels = rest := by
  rw [transactionEnd_eq]
  exact ⟨rfl, rfl, rfl, rfl, rfl⟩

/-- A READ_CAL issued with OFFSET = X leaves RESULT = 0 and OFFSET as it is. -/
theorem transactionEnd_readCal {x : Raw24} {s : State} (h : s.ofs = x) (rest : List Bool) (later : List Input) :
    let t := transactionEnd x rest { beginTransaction .readCal s with inputs := later }
    t.result = 0 ∧ t.ofs = x ∧ t.raw = x ∧ t.phase = .idle ∧ t.dev.levels = rest ∧ t.inputs = later := by
  rw [transactionEnd_eq]
  exact ⟨congrArg bits32 (difference_self h), h, rfl, rfl, rfl, rfl⟩

/-- Settles O41: the READ_CAL begins with the OFFSET the TARE left. -/
theorem tareThenReadCalIsZero : Obligations.TareThenReadCalIsZero := by
  intro s p q x rest later hp hi hl
  have htare := run_command (op := .tare) (by simp) hp hi hl
  obtain ⟨hphase, hofs, hctrl, hinputs, hlevels⟩ := transactionEnd_tare x (presents q x ++ rest)
    (.host (encode .readCal).onPort :: (List.replicate (transactionSteps q s.ctrl.gain) .seq ++ later)) s
  rw [← hctrl] at hinputs
  have hreadCal := run_command (op := .readCal) (by simp) hphase hinputs hlevels
  rw [hctrl] at hreadCal
  exact ⟨_, (run_add htare _).trans hreadCal, transactionEnd_readCal hofs rest later⟩

/-! What a turn reads (R66) -/

/-- A sample depends on the device alone. -/
theorem sampleDout_of_dev {s t : State} (h : t.dev = s.dev) :
    sampleDout t = ((sampleDout s).1, { t with dev := (sampleDout s).2.dev }) := by
  cases hl : s.dev.levels with
  | cons b rest => rw [sampleDout_cons hl, sampleDout_cons (h ▸ hl), h]
  | nil => rw [sampleDout_nil hl, sampleDout_nil (h ▸ hl), h]

/-- States that agree in the sequencer's view differ in what the host writes and reads alone. -/
theorem eq_of_seqView {s t : State} (h : seqView t = seqView s) :
    t = { s with ctrl := t.ctrl, flags := t.flags, ofs := t.ofs, scale := t.scale, rdata := t.rdata, inputs := t.inputs } := by
  cases s
  cases t
  cases h
  rfl

/-- What a turn shows depends on what the state showed. -/
theorem seqView_seqStep {s t : State} (h : seqView t = seqView s) : seqView (seqStep t) = seqView (seqStep s) := by
  have hphase : t.phase = s.phase := congrArg SeqView.phase h
  have hsample := sampleDout_of_dev (congrArg SeqView.dev h : t.dev = s.dev)
  have hself := sampleDout_of_dev (rfl : s.dev = s.dev)
  obtain hp | hp | ⟨k, hp⟩ | ⟨k, hp⟩ | hp := phase_cases s
  · rwa [seqStep_idle hp, seqStep_idle (hphase.trans hp)]
  · rw [seqStep_poll hp hself, seqStep_poll (hphase.trans hp) hsample, eq_of_seqView h]
    rfl
  · rw [seqStep_rise hp, seqStep_rise (hphase.trans hp), eq_of_seqView h]
    rfl
  · obtain hk | hk := Nat.lt_or_ge k 24
    · rw [seqStep_fall_data hp hk hself, seqStep_fall_data (hphase.trans hp) hk hsample, eq_of_seqView h]
      rfl
    · rw [seqStep_fall_gain hp hk, seqStep_fall_gain (hphase.trans hp) hk, eq_of_seqView h]
      rfl
  · rw [seqStep_finish hp, seqStep_finish (hphase.trans hp), complete_eq, complete_eq, eq_of_seqView h]
    rfl

/-- So does what any number of turns show. -/
theorem seqView_seqSteps (n : Nat) {s t : State} (h : seqView t = seqView s) :
    seqView (seqSteps n t) = seqView (seqSteps n s) := by
  induction n generalizing s t with
  | zero => exact h
  | succ n ih => exact ih (seqView_seqStep h)

/-! A transaction under the host's reads and writes -/

/-- A quiet run shows what its turns of the SEQ agent show. -/
theorem run_quiet (l : List Input) {s : State} (hi : s.inputs = l) (hq : l.all Input.quiet = true) :
    ∃ t, run l.length s = .next t ∧ t.inputs = []
      ∧ seqView t = seqView (seqSteps (l.filter Input.isSeq).length s) := by
  induction l generalizing s with
  | nil => exact ⟨s, rfl, hi, rfl⟩
  | cons x xs ih =>
    rw [List.all_cons, Bool.and_eq_true] at hq
    obtain ⟨hx, hxs⟩ := hq
    cases x with
    | host t =>
      obtain ⟨u, hu, hv, hui⟩ := exec_commandless hx { s with inputs := xs }
      obtain ⟨w, hw, hwi, hwv⟩ := ih (s := u) hui hxs
      exact ⟨w, (run_succ ((step_host hi).trans hu) _).trans hw, hwi, hwv.trans (seqView_seqSteps _ hv)⟩
    | seq =>
      obtain ⟨w, hw, hwi, hwv⟩ := ih (s := { seqStep s with inputs := xs }) rfl hxs
      exact ⟨w, (run_succ (step_seq hi) _).trans hw, hwi, hwv.trans (seqView_seqSteps _ rfl)⟩
    | bus a => cases hx
    | rst => cases hx

/-- The turns of the SEQ agent in a list of inputs, alone. -/
theorem filter_isSeq (l : List Input) :
    l.filter Input.isSeq = List.replicate (l.filter Input.isSeq).length .seq := by
  rw [List.eq_replicate_iff]
  refine ⟨rfl, fun x hx => ?_⟩
  have h := (List.mem_filter.mp hx).2
  cases x with
  | seq => rfl
  | host t => cases h
  | bus a => cases h
  | rst => cases h

/-- Settles O42: both runs show what the turns of the SEQ agent show. -/
theorem hostWritesInvisibleToTransaction : Obligations.HostWritesInvisibleToTransaction := by
  intro l s hi hq
  obtain ⟨t, ht, -, hv⟩ := run_quiet l hi hq
  have hu := run_seq_inputs (l.filter Input.isSeq).length { s with inputs := l.filter Input.isSeq } []
    ((filter_isSeq l).trans (List.append_nil _).symm)
  exact ⟨t, _, ht, hu, hv.trans (seqView_seqSteps _ rfl)⟩

/-- In IDLE any number of turns leaves the state. -/
theorem seqSteps_idle (n : Nat) {s : State} (hp : s.phase = .idle) : seqSteps n s = s := by
  induction n with
  | zero => rfl
  | succ n ih => rw [seqSteps, seqStep_idle hp, ih]

theorem seqSteps_inputs (n : Nat) (s : State) : (seqSteps n s).inputs = s.inputs := by
  induction n generalizing s with
  | zero => rfl
  | succ n ih => rw [seqSteps, ih, seqStep_inputs]

/-- Settles O43: the quiet list and the turns after it show what all their turns show, and turns beyond those of the transaction
find the block idle. -/
theorem transactionCompletesUnderAnyInterleaving : Obligations.TransactionCompletesUnderAnyInterleaving := by
  intro s polls x rest hp hq hl
  obtain ⟨t, ht, hti, hv⟩ := run_quiet s.inputs rfl hq
  have hrun := (run_add ht (transactionSteps polls s.snap.gain)).trans (run_seq hti _)
  have hend : seqView (seqSteps (transactionSteps polls s.snap.gain) t) = seqView (transactionEnd x rest s) := by
    rw [seqView_seqSteps _ hv, ← seqSteps_add, Nat.add_comm, seqSteps_add, seqSteps_transaction hp hl]
    rw [seqSteps_idle _ (by rw [transactionEnd_eq])]
  rw [transactionEnd_eq] at hend
  have hresult := congrArg SeqView.result hend
  have hlastGrams := congrArg SeqView.lastGrams hend
  refine ⟨_, hrun, congrArg SeqView.phase hend, (seqSteps_inputs _ t).trans hti, congrArg SeqView.sck hend,
    congrArg SeqView.raw hend, congrArg SeqView.dev hend, congrArg SeqView.book hend, fun ho => ?_, fun ho => ?_,
    fun ho => ?_, fun ho => ?_, fun ho => hlastGrams.trans (if_neg ho)⟩
  all_goals simp only [seqView, ho] at hresult
  · exact hresult
  · exact hresult
  · exact ⟨hresult, hlastGrams.trans ((if_pos ho).trans hresult.symm)⟩
  · exact hresult

end Sys2Proof.Proofs
end

section
/-! PROOFS. The snapshot is unread while no command is in progress (spec/10_state.md R29). -/

namespace Sys2Proof.Proofs

open Sys2Proof Sys2Proof.Machine Sys2Proof.Laws

/-- `u` is `t` but for the snapshot at most, and all of `t` where a command is in progress. -/
def AlikeButSnapshot (t u : State) : Prop := { u with snap := t.snap } = t ∧ (t.phase ≠ .idle → u = t)

theorem alikeButSnapshot_idle {t u : State} (hi : t.phase = .idle) (h : { u with snap := t.snap } = t) :
    AlikeButSnapshot t u :=
  ⟨h, fun hn => absurd hi hn⟩

theorem alikeButSnapshot_refl (t : State) : AlikeButSnapshot t t := ⟨rfl, fun _ => rfl⟩

/-- A write to CMD in IDLE writes all of the snapshot or leaves it unread. -/
theorem issueWord_withSnap {s : State} (hi : s.phase = .idle) (v : Word) (p : Snapshot) :
    AlikeButSnapshot (issueWord v s) (issueWord v { s with snap := p }) := by
  obtain ⟨-, hd⟩ | ⟨-, hd⟩ | ⟨-, hd⟩ | ⟨-, hd⟩ | ⟨-, hd⟩ | ⟨-, hd⟩ | ⟨-, hd⟩ | ⟨-, -, hd⟩ := decodeCmd_word v
  all_goals simp only [issueWord, hd]
  · exact alikeButSnapshot_idle hi rfl
  · exact alikeButSnapshot_refl _
  · exact alikeButSnapshot_refl _
  · exact alikeButSnapshot_refl _
  · exact alikeButSnapshot_refl (issueMeasure s)
  · exact alikeButSnapshot_idle hi rfl
  · exact alikeButSnapshot_idle hi rfl
  · exact alikeButSnapshot_idle hi rfl

/-- No register shows the snapshot. -/
theorem readReg_withSnap (r : Reg) (s : State) (p : Snapshot) : readReg r { s with snap := p } = readReg r s := by
  cases r <;> rfl

/-- A transaction in IDLE does the same whatever the snapshot. -/
theorem exec_decodeBus_withSnap {s t : State} {x : Transaction} (hi : s.phase = .idle)
    (h : exec (decodeBus x) s = .next t) (p : Snapshot) :
    ∃ u, exec (decodeBus x) { s with snap := p } = .next u ∧ AlikeButSnapshot t u := by
  obtain ⟨r, hd⟩ | ⟨v, hd⟩ | ⟨v, hd⟩ | ⟨v, hd⟩ | ⟨v, hd⟩ | ⟨v, hd⟩ | ⟨v, hd⟩ | ⟨v, hd⟩ | ⟨v, hd⟩ := decodeBus_cases x
  all_goals rw [hd] at h ⊢
  case inr.inr.inl =>
    cases (exec_wrCmd_idle hi v).symm.trans h
    exact ⟨_, exec_wrCmd_idle (s := { s with snap := p }) hi v, issueWord_withSnap hi v p⟩
  case inl =>
    cases h
    refine ⟨_, rfl, alikeButSnapshot_idle hi ?_⟩
    rw [readReg_withSnap]
  all_goals
    cases h
    exact ⟨_, rfl, alikeButSnapshot_idle hi rfl⟩

/-- An input acts on an idle block alike whatever the snapshot. -/
theorem act_withSnap {s t : State} {x : Input} (hi : s.phase = .idle) (h : act x s = .next t) (p : Snapshot) :
    ∃ u, act x { s with snap := p } = .next u ∧ AlikeButSnapshot t u := by
  cases x with
  | host x => exact exec_decodeBus_withSnap hi h p
  | bus a =>
    simp only [act] at h ⊢
    cases hb : busTransaction a with
    | next x =>
      rw [hb] at h
      exact exec_decodeBus_withSnap hi h p
    | fault f => rw [hb] at h; cases h
    | refused r => rw [hb] at h; cases h
  | seq =>
    cases h
    refine ⟨_, rfl, ?_⟩
    rw [seqStep_idle hi, seqStep_idle (s := { s with snap := p }) hi]
    exact alikeButSnapshot_idle hi rfl
  | rst =>
    cases h
    exact ⟨_, rfl, alikeButSnapshot_refl (assertReset s)⟩

/-- Which input comes next does not depend on the snapshot. -/
theorem nextInput_withSnap (s : State) (p : Snapshot) :
    nextInput { s with snap := p } = ((nextInput s).1, { (nextInput s).2 with snap := p }) := by
  obtain h | ⟨x, rest, h⟩ : s.inputs = [] ∨ ∃ x rest, s.inputs = x :: rest := by cases s.inputs <;> simp
  · rw [nextInput_nil h, nextInput_nil (s := { s with snap := p }) h]
  · rw [nextInput_cons h, nextInput_cons (s := { s with snap := p }) h]

/-- Settles O45: both steps take the same input, and it acts alike. -/
theorem snapshotUnreadWhenIdle : Obligations.SnapshotUnreadWhenIdle := by
  intro s t p hi h
  obtain ⟨l, hl⟩ := nextInput_rest s
  have hi' : (nextInput s).2.phase = .idle := by rw [hl]; exact hi
  rw [step, nextInput_withSnap]
  exact act_withSnap hi' h p

end Sys2Proof.Proofs
end

section
/-! PROOFS. The reference calibration program, continued (spec/43_calibration_procedure.md): who sets CAL (R96, R104), the
weight-detection loop (R100), and the conversion to K and S with its accuracy (R103). -/

namespace Sys2Proof.Proofs

open Sys2Proof Sys2Proof.Machine Sys2Proof.Laws

/-! The lines that write CTRL -/

/-- Whether the line is a write to CTRL. -/
def writesCtrl : Line → Bool
  | .write .ctrl _ => true
  | .write _ _ | .read _ _ | .jumpIf _ _ | .jump _ | .send _ | .waitPeriod _ => false

/-- A line that is no write to CTRL sets no CAL: no other transaction does (R74). -/
theorem line_keeps_cal {l : Line} (hl : writesCtrl l = false) {σ : System} (h : σ.block.ctrl.cal = false) :
    (σ.line l).block.ctrl.cal = false := by
  cases l with
  | write r e =>
    obtain ⟨b, hb⟩ := exec_writeTo_answers r (σ.host.value e) σ.block
    have hblock : (σ.line (.write r e)).block = b := by simp only [System.line, System.transact, hb]
    rw [hblock]
    cases r
    case ctrl => cases hl
    case cmd => rw [(execWrCmd_keeps_ctrl_scale hb).1, h]
    all_goals
      cases hb
      simp [h]
  | read v r => exact h
  | jumpIf c d => exact h
  | jump d => exact h
  | send r => exact h
  | waitPeriod ms => exact h

/-- CAL after a write to CTRL (R74). -/
theorem line_writeCtrl_cal (e : HostExpr) (σ : System) :
    (σ.line (.write .ctrl e)).block.ctrl.cal = (calField (σ.host.value e) && σ.block.scale.k != 0) := rfl

/-- Of the 41 lines of `calibrate()` lines 2 and 40 write CTRL. -/
theorem calibrate_writesCtrl (f : Nat) :
    (calibrate f).map writesCtrl = (List.range 41).map fun n => decide (n = 2 ∨ n = 40) := rfl

theorem writesCtrl_iff {f n : Nat} {l : Line} (h : (calibrate f)[n]? = some l) :
    n < 41 ∧ (writesCtrl l = true ↔ n = 2 ∨ n = 40) := by
  have hm := congrArg (·[n]?) (calibrate_writesCtrl f)
  have hn : n < 41 := (List.getElem?_eq_some_iff.mp h).1
  simp only [List.getElem?_map, h, Option.map_some, List.getElem?_range hn, Option.some.injEq] at hm
  exact ⟨hn, by rw [hm, decide_eq_true_iff]⟩

/-- Line 2, the last of step 1, clears CAL. -/
theorem calibrate_line_2 (f : Nat) : (calibrate f)[2]? = some (.write .ctrl (.masked .t 2 0)) := rfl

/-- Line 40, the last of step 7, sets CAL. -/
theorem calibrate_line_40 (f : Nat) : (calibrate f)[40]? = some (.write .ctrl (.masked .t 2 2)) := rfl

/-! CAL through the program (R104) -/

/-- After step 1 and up to the last line CAL is 0. -/
def CalClear (σ : System) : Prop := 3 ≤ σ.host.pc → σ.host.pc ≤ 40 → σ.block.ctrl.cal = false

/-- Steps 1 and 2 go on line by line. -/
theorem calibrate_goesOn_start {f n : Nat} (hn : n < 15) {l : Line} (h : (calibrate f)[n]? = some l) : goesOn l = true := by
  obtain ⟨rest, hrest⟩ := announce_countdown_prefix f
  rw [← hrest, List.getElem?_append_left (by rw [announce_countdown_length]; exact hn)] at h
  exact announce_countdown_goesOn l (List.mem_of_getElem? h)

/-- Every turn keeps CAL at 0 between step 1 and the last line: line 2 clears it on the way in, and line 40 leads out. -/
theorem calClear_turn {f : Nat} {σ : System} (h : CalClear σ) (who : Turn) : CalClear (σ.turn (calibrate f) who) := by
  cases who with
  | seq =>
    intro hlo hhi
    exact (congrArg Ctrl.cal (seqStep_frame σ.block).1).trans (h hlo hhi)
  | host =>
    cases hl : (calibrate f)[σ.host.pc]? with
    | none => rwa [System.turn, hl]
    | some l =>
      obtain ⟨hlt, hw⟩ := writesCtrl_iff hl
      rw [turn_host hl]
      intro hlo hhi
      by_cases h2 : σ.host.pc ≤ 2
      · have hpc := line_pc_of_goesOn (calibrate_goesOn_start (by omega) hl) σ
        have hpc2 : σ.host.pc = 2 := by omega
        rw [hpc2, calibrate_line_2] at hl
        cases hl
        rw [line_writeCtrl_cal]
        simp [HostState.value, calField]
      · by_cases h40 : σ.host.pc = 40
        · rw [h40, calibrate_line_40] at hl
          cases hl
          have hpc := line_pc_of_goesOn (l := .write .ctrl (.masked .t 2 2)) rfl σ
          omega
        · have hno : writesCtrl l = false := Bool.eq_false_iff.mpr fun hc => by have := hw.mp hc; omega
          exact line_keeps_cal hno (h (by omega) (by omega))

/-- What every turn keeps, every schedule keeps. -/
theorem run_keeps_system {prog : List Line} {P : System → Prop} (hturn : ∀ σ who, P σ → P (σ.turn prog who))
    (sched : List Turn) {σ : System} (h : P σ) : P (System.run prog sched σ) := by
  induction sched generalizing σ with
  | nil => exact h
  | cons who rest ih => exact ih (hturn σ who h)

/-- A turn after step 1 that sets CAL is the host's write at the last line, over a coefficient that is not 0. -/
theorem cal_set_at_last_line {f : Nat} {σ : System} {who : Turn} (h0 : σ.block.ctrl.cal = false)
    (h1 : (σ.turn (calibrate f) who).block.ctrl.cal = true) (hpc : 3 ≤ σ.host.pc) :
    who = .host ∧ σ.host.pc = 40 ∧ σ.block.scale.k ≠ 0 := by
  cases who with
  | seq =>
    have hc : (seqStep σ.block).ctrl.cal = σ.block.ctrl.cal := congrArg Ctrl.cal (seqStep_frame σ.block).1
    exact absurd (hc.symm.trans h1) (by simp [h0])
  | host =>
    cases hl : (calibrate f)[σ.host.pc]? with
    | none =>
      rw [System.turn, hl] at h1
      exact absurd h1 (by simp [h0])
    | some l =>
      rw [turn_host hl] at h1
      have hw : writesCtrl l = true := by
        by_contra hn
        exact absurd (line_keeps_cal (Bool.eq_false_iff.mpr hn) h0) (by simp [h1])
      have h40 : σ.host.pc = 40 := by have := (writesCtrl_iff hl).2.mp hw; omega
      rw [h40, calibrate_line_40] at hl
      cases hl
      rw [line_writeCtrl_cal, Bool.and_eq_true, bne_iff_ne] at h1
      exact ⟨rfl, h40, h1.2⟩

/-- Settles O57: the first line is before step 1's end, so CAL is clear there as the claim asks, and every turn keeps it so. -/
theorem calibrationSetsCalOnlyAtTheEnd : Obligations.CalibrationSetsCalOnlyAtTheEnd := by
  refine ⟨fun f sched s => ?_, fun f σ who => cal_set_at_last_line⟩
  have hstart : CalClear ⟨.start, s⟩ := fun hlo => absurd hlo (by decide : ¬ 3 ≤ 0)
  exact run_keeps_system (P := CalClear) (fun σ who h => calClear_turn h who) sched hstart

/-! The weight-detection loop (R100) -/

/-- The threshold test, by the signed value. -/
theorem exceedsThreshold_iff (x : Word) : exceedsThreshold x = true ↔ 100000 < x.toInt ∨ x.toInt < -100000 := by
  rw [exceedsThreshold, decide_eq_true_iff, Config.detectThreshold, lt_abs]
  omega

/-- The three lines of the loop from its test on. -/
theorem calibrate_loop (f : Nat) : (calibrate f)[27]? = some (.jumpIf (.exceeds .x) 3)
    ∧ (calibrate f)[28]? = some (.waitPeriod 200) ∧ (calibrate f)[29]? = some (.jump (-7)) := ⟨rfl, rfl, rfl⟩

/-- The test's turn, by whether the value exceeds the threshold. -/
theorem turn_loop_test (f : Nat) {σ : System} (hpc : σ.host.pc = 27) :
    σ.turn (calibrate f) .host
      = { σ with host := { σ.host with pc := if exceedsThreshold σ.host.x then 30 else 28 } } := by
  rw [turn_host (l := .jumpIf (.exceeds .x) 3) (by rw [hpc]; exact (calibrate_loop f).1)]
  cases hx : exceedsThreshold σ.host.x <;>
    simp [System.line, HostState.holds, HostState.var, HostState.jump, hx, hpc]

/-- Settles O58: the test's two ways, and the two lines back to the loop's READ_CAL. -/
theorem detectionLoopExitsAboveThreshold : Obligations.DetectionLoopExitsAboveThreshold := by
  intro f σ hpc
  obtain ⟨-, hwait, hback⟩ := calibrate_loop f
  have htest := turn_loop_test f hpc
  refine ⟨fun hx => ?exits, fun hlo hhi => ?loops⟩
  case exits => rw [htest, if_pos ((exceedsThreshold_iff _).mpr hx)]
  case loops =>
    rw [if_neg (by rw [exceedsThreshold_iff]; omega)] at htest
    have hwaited : System.turn (calibrate f) .host { σ with host := { σ.host with pc := 28 } }
        = { σ with host := { σ.host with pc := 29, log := .waited 200 :: σ.host.log } } :=
      turn_host (σ := { σ with host := { σ.host with pc := 28 } }) hwait
    simp only [System.run]
    rw [htest, hwaited]
    exact turn_host (σ := { σ with host := { σ.host with pc := 29, log := .waited 200 :: σ.host.log } }) hback

/-! The conversion to K and S (R103) -/

/-- Where the search from shift `n` downward answers, the answer is the largest shift up to `n` whose coefficient fits. -/
theorem hostKsFrom_some {sf : ℚ} {f n : Nat} {k : Int} {s : Nat} (h : hostKsFrom sf f n = some (k, s)) :
    s ≤ n ∧ k = hostCoeff sf f s ∧ coeffFits k = true ∧ ∀ s', s < s' → s' ≤ n → coeffFits (hostCoeff sf f s') = false := by
  induction n with
  | zero =>
    rw [hostKsFrom] at h
    split at h
    · next hc => cases h; exact ⟨le_rfl, rfl, hc, fun s' hlt hle => absurd hlt (by omega)⟩
    · cases h
  | succ n ih =>
    rw [hostKsFrom] at h
    split at h
    · next hc => cases h; exact ⟨le_rfl, rfl, hc, fun s' hlt hle => absurd hlt (by omega)⟩
    · next hc =>
      obtain ⟨hle, hk, hfits, hmax⟩ := ih h
      refine ⟨by omega, hk, hfits, fun s' hlt hle' => ?_⟩
      obtain rfl | hn := eq_or_lt_of_le hle'
      · exact Bool.eq_false_iff.mpr hc
      · exact hmax s' hlt (by omega)

/-- Where it fails, no shift up to `n` fits. -/
theorem hostKsFrom_none {sf : ℚ} {f n : Nat} (h : hostKsFrom sf f n = none) :
    ∀ s' ≤ n, coeffFits (hostCoeff sf f s') = false := by
  induction n with
  | zero =>
    rw [hostKsFrom] at h
    split at h
    · cases h
    · next hc => exact fun s' hle => by rw [Nat.le_zero.mp hle]; exact Bool.eq_false_iff.mpr hc
  | succ n ih =>
    rw [hostKsFrom] at h
    split at h
    · cases h
    · next hc =>
      intro s' hle
      obtain rfl | hn := eq_or_lt_of_le hle
      · exact Bool.eq_false_iff.mpr hc
      · exact ih h s' (by omega)

theorem coeffFits_iff (k : Int) : coeffFits k = true ↔ -32768 ≤ k ∧ k ≤ 32767 ∧ k ≠ 0 := by
  simp [coeffFits, and_assoc]

/-- Settles O59: the search from shift 31 downward. -/
theorem hostConversionPicksLargestShift : Obligations.HostConversionPicksLargestShift := by
  refine fun sf f => ⟨fun k s h => ?_, hostKsFrom_none⟩
  obtain ⟨hle, hk, hfits, hmax⟩ := hostKsFrom_some h
  obtain ⟨hlo, hhi, hne⟩ := (coeffFits_iff k).mp hfits
  exact ⟨hle, hk, hlo, hhi, hne, hmax⟩

/-! Its accuracy -/

/-- The floor of a number and one half is within one half of it. -/
theorem abs_floor_add_half_sub_le (q : ℚ) : |((q + 1 / 2).floor : ℚ) - q| ≤ 1 / 2 := by
  have hlo := Rat.floor_le (q + 1 / 2)
  have hhi := Rat.lt_floor_add_one (q + 1 / 2)
  push_cast at hhi
  rw [abs_le]
  constructor <;> linarith

/-- Rounding moves a number by at most one half. -/
theorem abs_roundHalfAway_sub_le (q : ℚ) : |(roundHalfAway q : ℚ) - q| ≤ 1 / 2 := by
  rw [roundHalfAway]
  split
  · exact abs_floor_add_half_sub_le q
  · calc |((-(-q + 1 / 2).floor : Int) : ℚ) - q| = |((-q + 1 / 2).floor : ℚ) - -q| := by
          rw [← abs_neg]; push_cast; ring_nf
      _ ≤ 1 / 2 := abs_floor_add_half_sub_le (-q)

/-- The weight before saturation is within one half of the exact quotient of the product (R87). -/
theorem abs_weight_sub_le (x : Raw24) (p : Snapshot) :
    |(weight x p : ℚ) - (difference x p * p.k.toInt : Int) / 2 ^ p.s.toNat| ≤ 1 / 2 := by
  obtain h | h := Nat.eq_zero_or_pos p.s.toNat
  · rw [weight_of_shift_zero h, h]
    norm_num
  · obtain ⟨hlo, hhi⟩ := (weight_eq_iff_nearest h x (weight x p)).mp rfl
    have hpos : (0 : ℚ) < 2 ^ p.s.toNat := by positivity
    have hlo' : (2 * (weight x p : ℚ) - 1) * 2 ^ p.s.toNat ≤ 2 * (difference x p * p.k.toInt : Int) := by exact_mod_cast hlo
    have hhi' : 2 * ((difference x p * p.k.toInt : Int) : ℚ) < (2 * (weight x p : ℚ) + 1) * 2 ^ p.s.toNat := by
      exact_mod_cast hhi
    have hlow : (2 * (weight x p : ℚ) - 1) / 2 ≤ (difference x p * p.k.toInt : Int) / 2 ^ p.s.toNat := by
      rw [le_div_iff₀ hpos]; linarith
    have hhigh : ((difference x p * p.k.toInt : Int) : ℚ) / 2 ^ p.s.toNat ≤ (2 * (weight x p : ℚ) + 1) / 2 := by
      rw [div_le_iff₀ hpos]; linarith
    rw [abs_le]
    constructor <;> linarith

/-- SCALE holds the coefficient and the shift that `host_ks` picks. -/
theorem scale_holds_hostKs {sf : ℚ} {f : Nat} {k : Int} {s : Nat} (h : hostKs sf f = some (k, s)) :
    (BitVec.ofInt 16 k).toInt = k ∧ (BitVec.ofNat 5 s).toNat = s := by
  obtain ⟨hle, -, hfits, -⟩ := hostKsFrom_some h
  obtain ⟨hlo, hhi, -⟩ := (coeffFits_iff k).mp hfits
  refine ⟨?_, ?_⟩
  · rw [BitVec.toInt_ofInt]
    exact Int.bmod_eq_of_le (by omega) (by omega)
  · rw [BitVec.toNat_ofNat]
    exact Nat.mod_eq_of_lt (by omega)

/-- Settles O60: the product's rounding gives one half, and the coefficient's one half counts `|diff| / 2^S`. -/
theorem hostConversionErrorBound : Obligations.HostConversionErrorBound := by
  intro sf f k s x p h hk hs
  obtain ⟨hkint, hsnat⟩ := scale_holds_hostKs h
  obtain ⟨-, hkeq, -⟩ := hostKsFrom_some h
  have hweight := abs_weight_sub_le x p
  rw [hk, hs, hkint, hsnat] at hweight
  have hcoeff : |(k : ℚ) - 2 ^ (s + f) / sf| ≤ 1 / 2 := by rw [hkeq]; exact abs_roundHalfAway_sub_le _
  have hpos : (0 : ℚ) < 2 ^ s := by positivity
  have hscaled : |((difference x p * k : Int) : ℚ) / 2 ^ s - (difference x p : ℚ) * 2 ^ f / sf|
      ≤ |(difference x p : ℚ)| / 2 ^ (s + 1) :=
    calc |((difference x p * k : Int) : ℚ) / 2 ^ s - (difference x p : ℚ) * 2 ^ f / sf|
        = |(difference x p : ℚ) / 2 ^ s * ((k : ℚ) - 2 ^ (s + f) / sf)| := by
          congr 1
          push_cast
          rw [pow_add]
          field_simp
      _ = |(difference x p : ℚ)| / 2 ^ s * |(k : ℚ) - 2 ^ (s + f) / sf| := by rw [abs_mul, abs_div, abs_of_pos hpos]
      _ ≤ |(difference x p : ℚ)| / 2 ^ s * (1 / 2) := mul_le_mul_of_nonneg_left hcoeff (by positivity)
      _ = |(difference x p : ℚ)| / 2 ^ (s + 1) := by rw [pow_succ]; field_simp
  calc |(weight x p : ℚ) - (difference x p : ℚ) * 2 ^ f / sf|
      ≤ |(weight x p : ℚ) - (difference x p * k : Int) / 2 ^ s|
        + |((difference x p * k : Int) : ℚ) / 2 ^ s - (difference x p : ℚ) * 2 ^ f / sf| := abs_sub_le _ _ _
    _ ≤ |(difference x p : ℚ)| / 2 ^ (s + 1) + 1 / 2 := by linarith

end Sys2Proof.Proofs
end
